-- ==== Sys2Proof/Word.lean ====
section
/-! DEFINITION. The words of the IDT block (spec/00_scope.md R6, R7) and their plainest arithmetic. -/

namespace Sys2Proof

/-- One byte of the table memory. -/
abbrev Byte := BitVec 8

/-- A vector number, 0 to 255 (R6, R10). -/
abbrev Vec := BitVec 8

/-- A 16-bit word: an option word, a selector, an IDTR limit, half an address. -/
abbrev Half := BitVec 16

/-- A 32-bit word: a handler address, an IDTR base, a system address. -/
abbrev Word := BitVec 32

/-- A 64-bit word: a command word or a gate entry. -/
abbrev DWord := BitVec 64

/-- `IDT_LIMIT` of R6 and R174: the table size in bytes minus one. -/
abbrev idtLimit : Half := 0x07FF

end Sys2Proof
end

