-- ==== Sys2Proof/Syntax.lean ====
section
/-! DEFINITION. The 15 commands of the block (spec/30_encoding.md R88, spec/opcode_table.json) with the
operands R90 gives each, and the command classes of R120. -/

namespace Sys2Proof

/-- The validation path a command selects by its N bit (R123): N = 0 indexed, N = 1 named. -/
inductive Path where
  | indexed
  | named
  deriving DecidableEq, Repr

/-- HandlerKind (R11, R83): the calling convention a vector's handler must satisfy. -/
inductive HandlerKind where
  | plain
  | withErrorCode
  | diverging
  | divergingWithErrorCode
  deriving DecidableEq, Repr

/-- One command, one constructor per row of the opcode table. `aux` of SETTRAP, SETDPL and SETPRES is
the AUX field as the word carries it: only its low bits are used, and the rest must be 0 (R90, R92). -/
inductive Instr where
  | clr     (p : Path) (v : Vec)
  | setAddr (p : Path) (v : Vec) (a : Word)
  | setFn   (p : Path) (k : HandlerKind) (v : Vec) (a : Word)
  | setOpt  (p : Path) (v : Vec) (w : Half)
  | setTrap (p : Path) (v : Vec) (aux : Half)
  | setDpl  (p : Path) (v : Vec) (aux : Half)
  | setPres (p : Path) (v : Vec) (aux : Half)
  | getEnt  (p : Path) (v : Vec)
  | getAddr (p : Path) (v : Vec)
  | getOpt  (p : Path) (v : Vec)
  | getTrap (p : Path) (v : Vec)
  | getDpl  (p : Path) (v : Vec)
  | getPres (p : Path) (v : Vec)
  | lidt    (limit : Half) (base : Word)
  | publish
  deriving DecidableEq, Repr

/-- The operation an OP code names (R88). -/
inductive Op where
  | clr | setAddr | setFn | setOpt | setTrap | setDpl | setPres
  | getEnt | getAddr | getOpt | getTrap | getDpl | getPres
  | lidt | publish
  deriving DecidableEq, Repr

/-- The operation of a command. -/
def Instr.op : Instr → Op
  | .clr _ _ => .clr
  | .setAddr _ _ _ => .setAddr
  | .setFn _ _ _ _ => .setFn
  | .setOpt _ _ _ => .setOpt
  | .setTrap _ _ _ => .setTrap
  | .setDpl _ _ _ => .setDpl
  | .setPres _ _ _ => .setPres
  | .getEnt _ _ => .getEnt
  | .getAddr _ _ => .getAddr
  | .getOpt _ _ => .getOpt
  | .getTrap _ _ => .getTrap
  | .getDpl _ _ => .getDpl
  | .getPres _ _ => .getPres
  | .lidt _ _ => .lidt
  | .publish => .publish

/-- The three command classes of R120. -/
inductive CommandClass where
  | mutating
  | reading
  | idtrLoad
  deriving DecidableEq, Repr

/-- The class of an operation (R120). -/
def Op.commandClass : Op → CommandClass
  | .clr | .setAddr | .setFn | .setOpt | .setTrap | .setDpl | .setPres => .mutating
  | .getEnt | .getAddr | .getOpt | .getTrap | .getDpl | .getPres => .reading
  | .lidt | .publish => .idtrLoad

/-- The path and the vector of an entry command; IDTR commands name no slot (R120). -/
def Instr.slot? : Instr → Option (Path × Vec)
  | .clr p v => some (p, v)
  | .setAddr p v _ => some (p, v)
  | .setFn p _ v _ => some (p, v)
  | .setOpt p v _ => some (p, v)
  | .setTrap p v _ => some (p, v)
  | .setDpl p v _ => some (p, v)
  | .setPres p v _ => some (p, v)
  | .getEnt p v => some (p, v)
  | .getAddr p v => some (p, v)
  | .getOpt p v => some (p, v)
  | .getTrap p v => some (p, v)
  | .getDpl p v => some (p, v)
  | .getPres p v => some (p, v)
  | .lidt _ _ => none
  | .publish => none

end Sys2Proof
end

