-- ==== Sys2Proof/WellFormed.lean ====
section
/-! DEFINITION. Which command terms a legal word can carry (spec/30_encoding.md R92): for SETTRAP and
SETPRES `AUX[15:1]` is 0, for SETDPL `AUX[15:2]` is 0. Every other operand is a whole field of the word. -/

namespace Sys2Proof

/-- AUX holds one bit: `AUX[15:1] = 0` (R92). -/
def auxIsBit (aux : Half) : Bool := aux.toNat < 2

/-- AUX holds two bits: `AUX[15:2] = 0` (R92). -/
def auxIsPair (aux : Half) : Bool := aux.toNat < 4

/-- The unused bits of the operands are 0 (R92). -/
def Instr.wellFormed : Instr → Bool
  | .clr _ _ => true
  | .setAddr _ _ _ => true
  | .setFn _ _ _ _ => true
  | .setOpt _ _ _ => true
  | .setTrap _ _ aux => auxIsBit aux
  | .setDpl _ _ aux => auxIsPair aux
  | .setPres _ _ aux => auxIsBit aux
  | .getEnt _ _ => true
  | .getAddr _ _ => true
  | .getOpt _ _ => true
  | .getTrap _ _ => true
  | .getDpl _ _ => true
  | .getPres _ _ => true
  | .lidt _ _ => true
  | .publish => true

end Sys2Proof
end

