-- ==== Sys2Proof/Decode.lean ====
section
/-! DEFINITION. The command word: fields, decoder, encoder and the rows of the opcode table
(spec/30_encoding.md R81 to R92, R94). -/

namespace Sys2Proof

/-! ### Codes -/

/-- The OP code of an operation (R88). -/
def Op.code : Op → BitVec 4
  | .clr => 0x1
  | .setAddr => 0x2
  | .setFn => 0x3
  | .setOpt => 0x4
  | .setTrap => 0x5
  | .setDpl => 0x6
  | .setPres => 0x7
  | .getEnt => 0x8
  | .getAddr => 0x9
  | .getOpt => 0xA
  | .getTrap => 0xB
  | .getDpl => 0xC
  | .getPres => 0xD
  | .lidt => 0xE
  | .publish => 0xF

/-- The 15 operations in the order of the opcode map (R88). -/
def allOps : List Op :=
  [.clr, .setAddr, .setFn, .setOpt, .setTrap, .setDpl, .setPres,
   .getEnt, .getAddr, .getOpt, .getTrap, .getDpl, .getPres, .lidt, .publish]

/-- The operation an OP code selects; none for OP = 0 (R88, R92). -/
def opOfCode (c : BitVec 4) : Option Op := allOps.find? (fun o => o.code = c)

/-- N: 0 = indexed, 1 = named (R81, R123). -/
def pathOfBit (n : BitVec 1) : Path := if n = 1#1 then .named else .indexed

/-- The N bit of a path (R81, R123). -/
def Path.bit : Path → BitVec 1
  | .indexed => 0
  | .named => 1

/-- The numbers of the four kinds (R83). -/
def HandlerKind.code : HandlerKind → BitVec 2
  | .plain => 0
  | .withErrorCode => 1
  | .diverging => 2
  | .divergingWithErrorCode => 3

/-- The kind a K field declares (R83); every value names one. -/
def kindOfCode (k : BitVec 2) : HandlerKind :=
  if k = 0 then .plain
  else if k = 1 then .withErrorCode
  else if k = 2 then .diverging
  else .divergingWithErrorCode

/-! ### Fields of the command word -/

/-- The seven fields of the 64-bit command word, most significant first (R81). -/
structure Fields where
  op   : BitVec 4
  n    : BitVec 1
  k    : BitVec 2
  r    : BitVec 1
  vec  : Vec
  aux  : Half
  data : Word
  deriving DecidableEq, Repr

/-- `OP = cmd[63:60]`, `N = cmd[59]`, `K = cmd[58:57]`, `R = cmd[56]`, `VEC = cmd[55:48]`,
`AUX = cmd[47:32]`, `DATA = cmd[31:0]` (R82). -/
def fieldsOf (cmd : DWord) : Fields :=
  { op := cmd.extractLsb' 60 4
    n := cmd.extractLsb' 59 1
    k := cmd.extractLsb' 57 2
    r := cmd.extractLsb' 56 1
    vec := cmd.extractLsb' 48 8
    aux := cmd.extractLsb' 32 16
    data := cmd.extractLsb' 0 32 }

/-- The word `{OP, N, K, R, VEC, AUX, DATA}` (R7, R81). -/
def Fields.word (f : Fields) : DWord := f.op ++ f.n ++ f.k ++ f.r ++ f.vec ++ f.aux ++ f.data

/-- `AUX[15:1] = 0` (R92, SETTRAP and SETPRES). -/
def auxBitOnly (aux : Half) : Bool := aux.extractLsb' 1 15 = 0

/-- `AUX[15:2] = 0` (R92, SETDPL). -/
def auxPairOnly (aux : Half) : Bool := aux.extractLsb' 2 14 = 0

/-! ### Decoding -/

/-- Why a word is illegal (R92). The block reports each as abort code 1. -/
inductive DecodeError where
  /-- `OP = 0`. -/
  | opZero
  /-- `R = 1`. -/
  | reservedBit
  /-- A field the command does not use is not zero. -/
  | unusedField
  deriving DecidableEq, Repr

/-- The command, if its unused fields are zero. -/
def accept (unusedZero : Bool) (i : Instr) : Except DecodeError Instr :=
  if unusedZero then .ok i else .error .unusedField

/-- Decoding by fields, with the used fields of R88 and the illegal encodings of R92. -/
def decodeFields (f : Fields) : Except DecodeError Instr :=
  match opOfCode f.op with
  | none => .error .opZero
  | some o =>
    if f.r = 1#1 then .error .reservedBit
    else
      let p := pathOfBit f.n
      match o with
      | .clr => accept (f.k = 0 && f.aux = 0 && f.data = 0) (.clr p f.vec)
      | .setAddr => accept (f.k = 0 && f.aux = 0) (.setAddr p f.vec f.data)
      | .setFn => accept (f.aux = 0) (.setFn p (kindOfCode f.k) f.vec f.data)
      | .setOpt => accept (f.k = 0 && f.data = 0) (.setOpt p f.vec f.aux)
      | .setTrap => accept (f.k = 0 && auxBitOnly f.aux && f.data = 0) (.setTrap p f.vec f.aux)
      | .setDpl => accept (f.k = 0 && auxPairOnly f.aux && f.data = 0) (.setDpl p f.vec f.aux)
      | .setPres => accept (f.k = 0 && auxBitOnly f.aux && f.data = 0) (.setPres p f.vec f.aux)
      | .getEnt => accept (f.k = 0 && f.aux = 0 && f.data = 0) (.getEnt p f.vec)
      | .getAddr => accept (f.k = 0 && f.aux = 0 && f.data = 0) (.getAddr p f.vec)
      | .getOpt => accept (f.k = 0 && f.aux = 0 && f.data = 0) (.getOpt p f.vec)
      | .getTrap => accept (f.k = 0 && f.aux = 0 && f.data = 0) (.getTrap p f.vec)
      | .getDpl => accept (f.k = 0 && f.aux = 0 && f.data = 0) (.getDpl p f.vec)
      | .getPres => accept (f.k = 0 && f.aux = 0 && f.data = 0) (.getPres p f.vec)
      | .lidt => accept (f.n = 0 && f.k = 0 && f.vec = 0) (.lidt f.aux f.data)
      | .publish =>
        accept (f.n = 0 && f.k = 0 && f.vec = 0 && f.aux = 0 && f.data = 0) .publish

/-- The decoder, total on every 64-bit word, rejecting by name (R92, R94, R97). -/
def decode (cmd : DWord) : Except DecodeError Instr := decodeFields (fieldsOf cmd)

/-! ### Encoding -/

/-- The fields of an entry command whose unused fields are 0. -/
def entryFields (o : Op) (p : Path) (v : Vec) : Fields :=
  { op := o.code, n := p.bit, k := 0, r := 0, vec := v, aux := 0, data := 0 }

/-- The fields of an IDTR command. -/
def idtrFields (o : Op) (limit : Half) (base : Word) : Fields :=
  { op := o.code, n := 0, k := 0, r := 0, vec := 0, aux := limit, data := base }

/-- Where each operand travels (R88, R90); every unused field is 0 (R95). -/
def encodeFields : Instr → Fields
  | .clr p v => entryFields .clr p v
  | .setAddr p v a => { entryFields .setAddr p v with data := a }
  | .setFn p k v a => { entryFields .setFn p v with k := k.code, data := a }
  | .setOpt p v w => { entryFields .setOpt p v with aux := w }
  | .setTrap p v aux => { entryFields .setTrap p v with aux := aux }
  | .setDpl p v aux => { entryFields .setDpl p v with aux := aux }
  | .setPres p v aux => { entryFields .setPres p v with aux := aux }
  | .getEnt p v => entryFields .getEnt p v
  | .getAddr p v => entryFields .getAddr p v
  | .getOpt p v => entryFields .getOpt p v
  | .getTrap p v => entryFields .getTrap p v
  | .getDpl p v => entryFields .getDpl p v
  | .getPres p v => entryFields .getPres p v
  | .lidt limit base => idtrFields .lidt limit base
  | .publish => idtrFields .publish 0 0

/-- The command word of a command. -/
def encode (i : Instr) : DWord := (encodeFields i).word

/-! ### The opcode table -/

/-- The mask of a command's row in opcode_table.json: OP, R and every unused field (R92). -/
def Op.mask : Op → DWord
  | .clr => 0xF700FFFFFFFFFFFF
  | .setAddr => 0xF700FFFF00000000
  | .setFn => 0xF100FFFF00000000
  | .setOpt => 0xF7000000FFFFFFFF
  | .setTrap => 0xF700FFFEFFFFFFFF
  | .setDpl => 0xF700FFFCFFFFFFFF
  | .setPres => 0xF700FFFEFFFFFFFF
  | .getEnt => 0xF700FFFFFFFFFFFF
  | .getAddr => 0xF700FFFFFFFFFFFF
  | .getOpt => 0xF700FFFFFFFFFFFF
  | .getTrap => 0xF700FFFFFFFFFFFF
  | .getDpl => 0xF700FFFFFFFFFFFF
  | .getPres => 0xF700FFFFFFFFFFFF
  | .lidt => 0xFFFF000000000000
  | .publish => 0xFFFFFFFFFFFFFFFF

/-- The match value of a command's row: `match = OP << 60` (R92). -/
def Op.matchValue (o : Op) : DWord := o.code ++ 0#60

/-- A word matches the row of an operation: `(cmd & mask) = match` (R92). -/
def Op.matchesWord (o : Op) (cmd : DWord) : Bool := cmd &&& o.mask = o.matchValue

/-- The decoder on a word of the opcode table: every row is one 64-bit word presented whole (R80, R94). -/
def decodeTableWord (nbits w : Nat) : Option Instr :=
  match decode (BitVec.ofNat 64 (w % 2 ^ nbits)) with
  | .ok i => some i
  | .error _ => none

end Sys2Proof
end

