-- ==== Sys2Proof/Config.lean ====
section
/-! DEFINITION. What one machine fixes and what the spec leaves open: the two open parameters of
spec/92_eei_decisions.md (D17, D18) and the free values. None has a body, so nothing can be proved of
a value; a claim holds for every value. -/

namespace Sys2Proof

/-- The 16-byte unit `IDT_BASE` starts at. R52 admits exactly the multiples of 16 from 0 to
0xFFFF_F800, which are 16 times the numbers of this type (log 1). -/
opaque Config.idtParagraph : Fin 0x0FFFFF81

/-- `IDT_BASE` (R38, R52, D18): the system address of table byte 0, fixed for the whole run. -/
def Config.idtBase : Word := BitVec.ofNat 32 (16 * Config.idtParagraph.val)

/-- The limit half of `IDTR_RESET` (R26, D17): "a 48-bit draw under no law", one for each reset (log 2). -/
opaque Config.idtrResetLimit : Nat → Half

/-- The base half of `IDTR_RESET` (R26, D17), one for each reset (log 2). -/
opaque Config.idtrResetBase : Nat → Word

/-- A saved instruction pointer that the spec leaves at any value (I1, I2; log 16). -/
opaque Config.freeSavedIp : Nat → Word

/-- Which of the two addresses of R203 a debug exception saves (I4; log 16). -/
opaque Config.freeDebugChoice : Nat → Bool

/-- The upper half of the 32-bit slot that holds the saved 16-bit selector (R206; log 17). -/
opaque Config.freeCsSlotHigh : Nat → Half

end Sys2Proof
end

