-- ==== Sys2Proof/Machine/State.lean ====
section
/-! DEFINITION. The state of the block (spec/10_state.md R22), the CPU's side of its ports, and the reasons a
step can stop. -/

namespace Sys2Proof.Machine

/-- The table memory as (table index, byte) pairs, index i standing for the byte at system address
`IDT_BASE + i` (R23, R51; log 9). -/
abbrev Memory := List Host.Cell

/-- The interrupt descriptor table register (R26). -/
structure Idtr where
  limit : Half
  base  : Word
  deriving DecidableEq, Repr

/-- What a read through the gate-reader port gives (R163). -/
inductive GateResult where
  /-- `8*g + 7 > IDTR.limit`. -/
  | outOfLimit
  /-- The address is outside the table or not slot-aligned. -/
  | notServed
  /-- The block serves a slot. -/
  | entry (e : DWord)
  deriving DecidableEq, Repr

/-- What made the CPU take a vector (R204, R211, R213). -/
inductive Cause where
  /-- A CPU exception. -/
  | exception
  /-- The non-maskable interrupt. -/
  | nmi
  /-- A maskable device interrupt. -/
  | device
  /-- INTn, INT3 or INTO, from the ring of `cpl_in`. -/
  | software
  deriving DecidableEq, Repr

/-- A trap or interrupt as the CPU brings it to the table (R203, R205, R206). -/
structure TrapRequest where
  vec       : Vec
  cause     : Cause
  /-- The faulting or offending instruction. -/
  faultIp   : Word
  /-- The instruction after it, or after the recognition boundary. -/
  nextIp    : Word
  /-- The flags register that is pushed. -/
  flags     : Word
  /-- The error code the CPU computes, for the vectors that carry one. -/
  errorCode : Word
  /-- The convention of the code at the gate's address as a composing model shows it; none where it
  cannot show one (I20; log 20). -/
  handler   : Option HandlerKind
  deriving DecidableEq, Repr

/-- The frame a handler sees (R206) and what the CPU resumes on return (R210). -/
structure Frame where
  vec       : Vec
  errorCode : Option Word
  ip        : Word
  csSlot    : Word
  flags     : Word
  /-- The CPU's inputs to the block as they were when the trap was taken. -/
  cs        : Half
  cpl       : BitVec 2
  ifFlag    : Bool
  deriving DecidableEq, Repr

/-- One thing the outside does, one step each (R3, R9, R59). -/
inductive Input where
  /-- The host presents a command word (R80). -/
  | command (cmd : DWord)
  /-- The gate reader presents a vector (R163). -/
  | gateRead (g : Vec)
  /-- The CPU takes a trap or interrupt through the table (R205). -/
  | trap (t : TrapRequest)
  /-- The innermost active handler returns (R210). -/
  | trapReturn
  /-- The CPU's code selector, privilege level and interrupt flag become these (R31 to R33). -/
  | pins (cs : Half) (cpl : BitVec 2) (ifFlag : Bool)
  /-- Another agent stores a byte at a system address (R56). -/
  | foreignStore (addr : Word) (b : Byte)
  /-- Reset (R240). -/
  | reset
  deriving DecidableEq, Repr

/-- The state of R22, the sampled inputs of R80, and the model's own record of its ports. -/
structure State where
  /-- `TBL` (R23). -/
  tbl       : Memory
  /-- `HV`, bit v for slot v (R27). -/
  hv        : BitVec 256
  /-- `IDTR` (R26). -/
  idtr      : Idtr
  /-- `PUBLISHED` (R28). -/
  published : Bool
  /-- `ABORTED` (R29). -/
  aborted   : Bool
  /-- `ERR` (R29). -/
  err       : BitVec 4
  /-- `RDATA` (R34). -/
  rdata     : DWord
  /-- `cs_in` (R31). -/
  csIn      : Half
  /-- `cpl_in` (R32). -/
  cplIn     : BitVec 2
  /-- `if_in` (R33). -/
  ifIn      : Bool
  /-- What the outside will do, oldest first (R251; log 5). -/
  inputs    : List Input
  /-- The last output of the gate-reader port (R80; log 14). -/
  gateData  : Option GateResult
  /-- Where control last arrived through a gate or by a return (R205, R210; log 14). -/
  cpuTarget : Option Word
  /-- The flags register that a return restored, if control last arrived by a return (R210; log 14). -/
  cpuFlags  : Option Word
  /-- The handlers entered and not yet returned, innermost first (R206, R211; log 14). -/
  active    : List Frame
  /-- How many free values have been drawn (log 2). -/
  draws     : Nat
  deriving DecidableEq, Repr

/-- Why a run stops with a fault. No command raises one: they are the faults of a composed run
(R212, R243, I2, I19, I20), all raised by `takeTrap` or `returnFromTrap`, and all safe. -/
inductive Fault where
  /-- Raised by `takeTrap`: a dispatch before PUBLISH (R243, I14). Safe. -/
  | dispatchBeforePublish
  /-- Raised by `takeTrap`: `8g + 7` exceeds IDTR.limit (R212). Safe. -/
  | gateOutOfLimit
  /-- Raised by `takeTrap`: IDTR does not point at the table (R212). Safe. -/
  | gateNotServed
  /-- Raised by `takeTrap`: gate g is absent (R212, I11). Safe. -/
  | gateAbsent
  /-- Raised by `takeTrap`: a software interrupt from a ring the DPL does not admit (R213; log 21). Safe. -/
  | softwareInterruptDenied
  /-- Raised by `takeTrap`: the handler is not shown to have the vector's convention (I20; log 20). Safe. -/
  | handlerConvention
  /-- Raised by `returnFromTrap`: a return from vector 8 or 18 (R210, I2). Safe. -/
  | returnFromDiverging
  /-- Raised by `returnFromTrap`: a return with no handler active (log 22). Safe. -/
  | returnWithoutHandler
  deriving DecidableEq, Repr

/-- Why a step is refused. -/
inductive Refusal where
  /-- Raised by `exec` for an instruction that has no meaning yet; no arm raises it. Safe. -/
  | notModelled (mnemonic : String)
  /-- Raised by `storeFromOutside`: another agent stores into the table window (R56, D21). Safe. -/
  | foreignStore
  deriving DecidableEq, Repr

/-- The categories an abort records in ERR (R131, R200). An abort is no stop: it is a next state. -/
inductive AbortCode where
  /-- OP = 0, R = 1, or a nonzero unused field. -/
  | illegalCommand
  /-- A reserved vector on the indexed path. -/
  | reservedVector
  /-- A vector with an error code on the indexed path. -/
  | hasErrorCode
  /-- A diverging vector on the indexed path. -/
  | diverging
  /-- A vector with no named field on the named path. -/
  | notNamed
  /-- SETFN with a kind that is not the vector's. -/
  | kindMismatch
  /-- SETOPT with bits 11:9 not all 1. -/
  | mustBeOneCleared
  /-- SETOPT with bit 12 or one of bits 7:0 set. -/
  | reservedOptionBits
  /-- Setting P while the slot's HV bit is 0. -/
  | presentWithoutHandler
  /-- A mutating entry command with `if_in = 1`. -/
  | liveMutation
  /-- LIDT or PUBLISH with `cpl_in ≠ 0`. -/
  | privilege
  /-- LIDT or PUBLISH with PUBLISHED = 1. -/
  | alreadyPublished
  /-- LIDT or PUBLISH with `if_in = 1`. -/
  | ifSetAtLoad
  deriving DecidableEq, Repr

/-- The outcome of one step. -/
abbrev Result := Host.Outcome State Fault Refusal

/-- The state right after reset (R22, R240): every slot the default entry (nothing listed, log 9), IDTR the
parameter `IDTR_RESET`, the CPU's inputs at the launch premise of R242 (log 3), nothing presented (log 7). -/
def State.reset : State :=
  { tbl := []
    hv := 0
    idtr := { limit := Config.idtrResetLimit 0, base := Config.idtrResetBase 0 }
    published := false
    aborted := false
    err := 0
    rdata := 0
    csIn := 0x0008
    cplIn := 0
    ifIn := false
    inputs := []
    gateData := none
    cpuTarget := none
    cpuFlags := none
    active := []
    draws := 1 }

end Sys2Proof.Machine
end

