-- ==== Sys2Proof/Machine/Flags.lean ====
section
/-! DEFINITION. The option word (spec/10_state.md R24, spec/30_encoding.md R85, R86): its fields, their setters,
and which words are legal. The block has no other flags (R35). -/

namespace Sys2Proof.Machine

/-! ### Fields (R24) -/

/-- P, bit 15. -/
def optPresent (w : Half) : Bool := w.getLsbD 15

/-- DPL, bits 14:13. -/
def optDpl (w : Half) : BitVec 2 := w.extractLsb' 13 2

/-- T, bit 8. -/
def optTrap (w : Half) : Bool := w.getLsbD 8

/-- The must-be-one bits 11:9. -/
def optMustBeOne (w : Half) : BitVec 3 := w.extractLsb' 9 3

/-- The reserved bit 12. -/
def optReservedHigh (w : Half) : BitVec 1 := w.extractLsb' 12 1

/-- The reserved bits 7:0. -/
def optReservedLow (w : Half) : BitVec 8 := w.extractLsb' 0 8

/-! ### Setters, each writing only its own field (R150 to R152) -/

/-- `OPT[15] <- b`. -/
def optSetPresent (w : Half) (b : Bool) : Half := BitVec.ofBool b ++ w.extractLsb' 0 15

/-- `OPT[14:13] <- d`. -/
def optSetDpl (w : Half) (d : BitVec 2) : Half := w.extractLsb' 15 1 ++ d ++ w.extractLsb' 0 13

/-- `OPT[8] <- b`. -/
def optSetTrap (w : Half) (b : Bool) : Half :=
  w.extractLsb' 9 7 ++ BitVec.ofBool b ++ w.extractLsb' 0 8

/-! ### Words -/

/-- The word `0x0E00 | P<<15 | DPL<<13 | T<<8` (R86). -/
def optWord (present : Bool) (dpl : BitVec 2) (trap : Bool) : Half :=
  BitVec.ofBool present ++ dpl ++ 0#1 ++ 7#3 ++ BitVec.ofBool trap ++ 0#8

/-- What SETADDR and SETFN store: present, DPL 0, interrupt gate (R141). -/
def installedOpt : Half := 0x8E00

/-- Bits 11:9 are all 1 (R143, code 7 otherwise). -/
def optKeepsMustBeOne (w : Half) : Bool := optMustBeOne w = 7#3

/-- Bits 12 and 7:0 are 0 (R143, code 8 otherwise). -/
def optKeepsReserved (w : Half) : Bool := optReservedHigh w = 0 && optReservedLow w = 0

/-- The word may stand in an entry (R24, R86). -/
def optLegal (w : Half) : Bool := optKeepsMustBeOne w && optKeepsReserved w

end Sys2Proof.Machine
end

