-- ==== Sys2Proof/Machine/Operands.lean ====
section
/-! DEFINITION. Operand assembly and the bit-exact formats: the operand use of spec/30_encoding.md R90, the
address split of R89, the gate entry of R84 with its byte order (R53), the gate decode of R164 and the IDTR
image of R87. -/

namespace Sys2Proof.Machine

/-! ### Operands of a command (R90) -/

/-- `AUX[0]`, the bit value of SETTRAP and SETPRES (R90). -/
def auxBit (aux : Half) : Bool := aux.getLsbD 0

/-- `AUX[1:0]`, the DPL of SETDPL (R90). -/
def auxPair (aux : Half) : BitVec 2 := aux.extractLsb' 0 2

/-- `zext_64` of a field narrower than RDATA (R7, R134). -/
def zext64 {w : Nat} (x : BitVec w) : DWord := x.setWidth 64

/-! ### The address split (R89) -/

/-- `LOW <- A[15:0]` (R89). -/
def addrLow (a : Word) : Half := a.extractLsb' 0 16

/-- `MID <- A[31:16]` (R89). -/
def addrMid (a : Word) : Half := a.extractLsb' 16 16

/-- `A = {MID, LOW}` (R89). -/
def addrJoin (mid low : Half) : Word := mid ++ low

/-! ### The gate entry (R84) -/

/-- `ENT(v) = {MID, OPT, SEL, LOW}` (R84). -/
def packEntry (mid opt sel low : Half) : DWord := mid ++ opt ++ sel ++ low

/-- `LOW(v) = ENT(v)[15:0]` (R25). -/
def entLow (e : DWord) : Half := e.extractLsb' 0 16

/-- `SEL(v) = ENT(v)[31:16]` (R25). -/
def entSel (e : DWord) : Half := e.extractLsb' 16 16

/-- `OPT(v) = ENT(v)[47:32]` (R24). -/
def entOpt (e : DWord) : Half := e.extractLsb' 32 16

/-- `MID(v) = ENT(v)[63:48]` (R25). -/
def entMid (e : DWord) : Half := e.extractLsb' 48 16

/-- The handler address an entry holds: `{MID, LOW}` (R89, R161, R164). -/
def entAddress (e : DWord) : Word := addrJoin (entMid e) (entLow e)

/-- The entry with its option word replaced and every other bit kept. -/
def entWithOpt (e : DWord) (w : Half) : DWord := packEntry (entMid e) w (entSel e) (entLow e)

/-- The default entry, `0x0000_0E00_0000_0000` (R23, R140). -/
def defaultEntry : DWord := 0x00000E0000000000

/-! ### Gate decode (R164) -/

/-- What a gate value means to the gate reader (R164). -/
structure Gate where
  offset   : Word
  selector : Half
  trapGate : Bool
  dpl      : BitVec 2
  present  : Bool
  deriving DecidableEq, Repr

/-- Offset `{e[63:48], e[15:0]}`, selector `e[31:16]`, T `e[40]`, DPL `e[46:45]`, P `e[47]` (R164). -/
def decodeGate (e : DWord) : Gate :=
  { offset := e.extractLsb' 48 16 ++ e.extractLsb' 0 16
    selector := e.extractLsb' 16 16
    trapGate := e.getLsbD 40
    dpl := e.extractLsb' 45 2
    present := e.getLsbD 47 }

/-! ### The IDTR image (R87) -/

/-- The 6 bytes `{limit, base}`, little-endian, limit first (R87). -/
def idtrImage (r : Idtr) : List Byte :=
  [r.limit.extractLsb' 0 8, r.limit.extractLsb' 8 8,
   r.base.extractLsb' 0 8, r.base.extractLsb' 8 8, r.base.extractLsb' 16 8, r.base.extractLsb' 24 8]

/-- What PUBLISH loads: limit 2047 and base `IDT_BASE` (R171, R174). -/
def publishedIdtr : Idtr := { limit := idtLimit, base := Config.idtBase }

end Sys2Proof.Machine
end

