-- ==== Sys2Proof/Machine/Vectors.lean ====
section
/-! DEFINITION. The vector classification of spec/40_command_execution.md R124, the two path checks (R125, R127),
and the vector taxonomy of spec/60_exceptions.md R203. -/

namespace Sys2Proof.Machine

/-! ### Classes and kinds (R124) -/

/-- The class of a vector (R124). -/
inductive VectorClass where
  | defined
  | reserved
  | device
  deriving DecidableEq, Repr

/-- "Vectors 9, 15, 20–29, 31 are reserved" (R124; 20 by C2). -/
def reservedVectors : List Nat := [9, 15, 20, 21, 22, 23, 24, 25, 26, 27, 28, 29, 31]

/-- The WithErrorCode vectors (R124; 17 by C3). -/
def errorCodeVectors : List Nat := [10, 11, 12, 13, 14, 17, 30]

/-- `class(v)` (R124). -/
def classOf (v : Vec) : VectorClass :=
  if v.toNat ∈ reservedVectors then .reserved
  else if v.toNat < 32 then .defined
  else .device

/-- `kind(v)`; none for a reserved vector (R124). -/
def kindOf (v : Vec) : Option HandlerKind :=
  if v.toNat ∈ reservedVectors then none
  else if v.toNat = 8 then some .divergingWithErrorCode
  else if v.toNat ∈ errorCodeVectors then some .withErrorCode
  else if v.toNat = 18 then some .diverging
  else some .plain

/-! ### Path checks -/

/-- The 18 named fields (R127); virtualization has none (C2), nor has vector 2. -/
def namedVectors : List Nat := [0, 1, 3, 4, 5, 6, 7, 8, 10, 11, 12, 13, 14, 16, 17, 18, 19, 30]

/-- `check_indexed(v)` (R125). -/
def checkIndexed (v : Vec) : Option AbortCode :=
  match kindOf v with
  | none => some .reservedVector
  | some .withErrorCode => some .hasErrorCode
  | some .divergingWithErrorCode => some .hasErrorCode
  | some .diverging => some .diverging
  | some .plain => none

/-- `check_named(v)` (R127). -/
def checkNamed (v : Vec) : Option AbortCode :=
  if v.toNat ∈ namedVectors then none else some .notNamed

/-- The path check an entry command runs (R121, R123). -/
def checkPath (p : Path) (v : Vec) : Option AbortCode :=
  match p with
  | .indexed => checkIndexed v
  | .named => checkNamed v

/-- The HandlerKind check of SETFN (R128). -/
def checkKind (k : HandlerKind) (v : Vec) : Option AbortCode :=
  if kindOf v = some k then none else some .kindMismatch

/-! ### The taxonomy (R203) -/

/-- The error-code column of R203, with C3's reading of "no (always 0)". -/
inductive ErrorCodeRule where
  | absent
  | alwaysZero
  | supplied
  deriving DecidableEq, Repr

/-- The saved-IP column of R203. -/
inductive SavedIpRule where
  /-- The faulting or offending instruction. -/
  | offending
  /-- The instruction after it, or after the recognition boundary. -/
  | following
  /-- "faulting instr. or next, condition-dependent". -/
  | either
  /-- "undefined" or "implementation-defined". -/
  | anyValue
  deriving DecidableEq, Repr

/-- Whether and which error code accompanies a vector (R203, C3). -/
def errorCodeRule (v : Vec) : ErrorCodeRule :=
  if v.toNat = 8 ∨ v.toNat = 17 then .alwaysZero
  else if v.toNat ∈ errorCodeVectors then .supplied
  else .absent

/-- Where the saved IP of a vector points (R203, I1, I2, I4). -/
def savedIpRule (v : Vec) : SavedIpRule :=
  if v.toNat = 8 ∨ v.toNat = 18 ∨ v.toNat = 30 then .anyValue
  else if v.toNat = 1 then .either
  else if v.toNat = 2 ∨ v.toNat = 3 ∨ v.toNat = 4 ∨ 32 ≤ v.toNat then .following
  else .offending

/-- Whether a vector's handler returns: never for 8 and 18 (R203, R210). -/
def handlerReturns (v : Vec) : Bool := v.toNat ≠ 8 && v.toNat ≠ 18

/-- The vector's name (R203); none for a reserved vector. -/
def vectorName (v : Vec) : Option String :=
  match v.toNat with
  | 0 => some "Divide error"
  | 1 => some "Debug"
  | 2 => some "Non-maskable interrupt"
  | 3 => some "Breakpoint"
  | 4 => some "Overflow"
  | 5 => some "Bound-range exceeded"
  | 6 => some "Invalid opcode"
  | 7 => some "Device not available"
  | 8 => some "Double fault"
  | 10 => some "Invalid TSS"
  | 11 => some "Segment not present"
  | 12 => some "Stack-segment fault"
  | 13 => some "General protection"
  | 14 => some "Page fault"
  | 16 => some "x87 floating point"
  | 17 => some "Alignment check"
  | 18 => some "Machine check"
  | 19 => some "SIMD floating point"
  | 30 => some "Security exception"
  | n => if 32 ≤ n then some "Device/software interrupts" else none

end Sys2Proof.Machine
end

