-- ==== Sys2Proof/Machine/Ops.lean ====
section
/-! DEFINITION. The operations every command shares: the table memory (spec/10_state.md R23,
spec/00_scope.md R8), the handler-valid bits (R27), the abort (spec/40_command_execution.md R122), the check
pipeline (R121), STATUS (R30) and reset (spec/70_reset_and_hazards.md R240). -/

namespace Sys2Proof.Machine

/-! ### Bytes of the table -/

/-- What a table byte that nothing has written reads as: its byte of the default entry (R23; log 9). -/
def resetByte (i : Nat) : Byte := if i % 8 = 5 then 0x0E else 0x00

/-- The listed byte at an index, in a list whose indexes rise. -/
def Memory.lookup : Memory → Nat → Option Byte
  | [], _ => none
  | (k, b) :: m, i => if i = k then some b else if i < k then none else Memory.lookup m i

/-- `TBL[i]`. -/
def Memory.read (m : Memory) (i : Nat) : Byte := (Memory.lookup m i).getD (resetByte i)

/-- A cell, unless it holds what an unlisted index reads as. -/
def Memory.cons (i : Nat) (b : Byte) (m : Memory) : Memory :=
  if b = resetByte i then m else (i, b) :: m

/-- `TBL[i] <- b`, keeping the canonical form. -/
def Memory.write : Memory → Nat → Byte → Memory
  | [], i, b => Memory.cons i b []
  | (k, c) :: m, i, b =>
    if i < k then Memory.cons i b ((k, c) :: m)
    else if i = k then Memory.cons i b m
    else (k, c) :: Memory.write m i b

/-- The cells lie at rising indexes from `lo`, inside the table, and none holds what an unlisted index reads as. -/
def Memory.wfFrom : Nat → Memory → Bool
  | _, [] => true
  | lo, (k, b) :: m => decide (lo ≤ k) && decide (k < 2048) && decide (b ≠ resetByte k) && Memory.wfFrom (k + 1) m

/-- The canonical form of the table memory. -/
def Memory.wf (m : Memory) : Bool := Memory.wfFrom 0 m

/-- `n` bytes from index `i`, little-endian: the byte at `i` is bits 7:0 (R8, R53). -/
def Memory.readLE (m : Memory) (i : Nat) : Nat → Nat
  | 0 => 0
  | n + 1 => (Memory.read m i).toNat + 256 * Memory.readLE m (i + 1) n

/-- Stores the `n` low bytes of a value from index `i`, little-endian (R8, R53). -/
def Memory.writeLE (m : Memory) (i : Nat) : Nat → Nat → Memory
  | 0, _ => m
  | n + 1, x => Memory.writeLE (Memory.write m i (BitVec.ofNat 8 x)) (i + 1) n (x / 256)

/-! ### Slots -/

/-- The table index of slot v, `8*v` (R23, R51). -/
def slotIndex (v : Vec) : Nat := 8 * v.toNat

/-- `TBL[i]` of a state. -/
def State.tblByte (s : State) (i : Nat) : Byte := Memory.read s.tbl i

/-- `ENT(v)`, the 64-bit value of slot v (R8, R84). -/
def State.ent (s : State) (v : Vec) : DWord := BitVec.ofNat 64 (Memory.readLE s.tbl (slotIndex v) 8)

/-- `ENT(v) <- e`: the whole slot, in one step (R8, R55). -/
def State.setEnt (s : State) (v : Vec) (e : DWord) : State :=
  { s with tbl := Memory.writeLE s.tbl (slotIndex v) 8 e.toNat }

/-- `OPT(v)` (R24). -/
def State.opt (s : State) (v : Vec) : Half := entOpt (s.ent v)

/-- `OPT(v) <- w`, a read-modify-write of the slot that keeps LOW, SEL and MID (R134). -/
def State.setOpt (s : State) (v : Vec) (w : Half) : State := s.setEnt v (entWithOpt (s.ent v) w)

/-- `HV[v]` (R27). -/
def State.hvBit (s : State) (v : Vec) : Bool := s.hv.getLsbD v.toNat

/-- `HV[v] <- b` (R27). -/
def State.setHv (s : State) (v : Vec) (b : Bool) : State :=
  { s with hv := if b then s.hv ||| (1#256 <<< v.toNat) else s.hv &&& ~~~(1#256 <<< v.toNat) }

/-- `RDATA <- x` (R8, R34). -/
def State.setRdata (s : State) (x : DWord) : State := { s with rdata := x }

/-- `IDTR <- r` (R26). -/
def State.setIdtr (s : State) (r : Idtr) : State := { s with idtr := r }

/-- `PUBLISHED <- 1` (R28). -/
def State.markPublished (s : State) : State := { s with published := true }

/-! ### The system address space (R50, R51) -/

/-- The system address of slot v, `IDT_BASE + 8*v` (R51, R132). -/
def slotAddress (v : Vec) : Word := Config.idtBase + BitVec.ofNat 32 (slotIndex v)

/-- The table index of `n` bytes at a system address; none where they are not all in the window (R50). -/
def windowIndex (addr : Word) (n : Nat) : Option Nat :=
  if (addr - Config.idtBase).toNat + n ≤ 2048 then some (addr - Config.idtBase).toNat else none

/-- `MemRead(addr, n)` on the block's window (R8, R134). -/
def State.memRead (s : State) (addr : Word) (n : Nat) : Option Nat :=
  (windowIndex addr n).map (fun i => Memory.readLE s.tbl i n)

/-- `MemWrite(addr, n, x)` on the block's window (R8, R134). -/
def State.memWrite (s : State) (addr : Word) (n x : Nat) : Option State :=
  (windowIndex addr n).map (fun i => { s with tbl := Memory.writeLE s.tbl i n x })

/-! ### Abort (R122, R200) -/

/-- The number of an abort code (R200). -/
def AbortCode.code : AbortCode → BitVec 4
  | .illegalCommand => 1
  | .reservedVector => 2
  | .hasErrorCode => 3
  | .diverging => 4
  | .notNamed => 5
  | .kindMismatch => 6
  | .mustBeOneCleared => 7
  | .reservedOptionBits => 8
  | .presentWithoutHandler => 9
  | .liveMutation => 10
  | .privilege => 11
  | .alreadyPublished => 12
  | .ifSetAtLoad => 13

/-- `raise Abort(code)`: ABORTED <- 1, ERR <- code, and nothing else (R122, R201). -/
def State.abort (s : State) (c : AbortCode) : State := { s with aborted := true, err := c.code }

/-- Reset, the only way back from an abort (R29, R240): every element of R22 at its reset value. The CPU's
inputs and what it will present are not the block's and stay; the records of its ports start anew (log 13). -/
def State.resetBlock (s : State) : State :=
  { State.reset with
    idtr := { limit := Config.idtrResetLimit s.draws, base := Config.idtrResetBase s.draws }
    csIn := s.csIn
    cplIn := s.cplIn
    ifIn := s.ifIn
    inputs := s.inputs
    draws := s.draws + 1 }

/-- STATUS, a view: `{ABORTED, PUBLISHED, 10 zero bits, ERR}` (R30). -/
def State.status (s : State) : Half :=
  BitVec.ofBool s.aborted ++ BitVec.ofBool s.published ++ 0#10 ++ s.err

/-! ### The check pipeline (R121) -/

/-- The first check that fails decides the abort code (R121, R215). -/
def firstFailing : List (Option AbortCode) → Option AbortCode
  | [] => none
  | some c :: _ => some c
  | none :: checks => firstFailing checks

/-- One command: discarded while ABORTED = 1; else the first failing check aborts with none of the command's
writes; else the command's own writes happen (R9, R121, R122). -/
def runCommand (s : State) (checks : List (Option AbortCode)) (done : State) : Result :=
  if s.aborted then .next s
  else match firstFailing checks with
    | some c => .next (s.abort c)
    | none => .next done

/-- A check that passes when the condition holds. -/
def require (ok : Bool) (c : AbortCode) : Option AbortCode := if ok then none else some c

/-- Legality of an AUX operand that holds one bit (R92; log 11). -/
def checkAuxBit (aux : Half) : Option AbortCode := require (auxBitOnly aux) .illegalCommand

/-- Legality of an AUX operand that holds two bits (R92; log 11). -/
def checkAuxPair (aux : Half) : Option AbortCode := require (auxPairOnly aux) .illegalCommand

/-- Interrupts-disabled check of the mutating commands (R126). -/
def checkLive (s : State) : Option AbortCode := require (!s.ifIn) .liveMutation

/-- Privilege check of LIDT and PUBLISH (R170, R171, R214). -/
def checkPrivilege (s : State) : Option AbortCode := require (s.cplIn = 0) .privilege

/-- Publish-once check of LIDT and PUBLISH (R170, R171). -/
def checkUnpublished (s : State) : Option AbortCode := require (!s.published) .alreadyPublished

/-- Interrupts-disabled check of LIDT and PUBLISH (R170, R171). -/
def checkLoadWindow (s : State) : Option AbortCode := require (!s.ifIn) .ifSetAtLoad

/-- SETOPT must not clear bits 11:9 (R143). -/
def checkMustBeOne (w : Half) : Option AbortCode := require (optKeepsMustBeOne w) .mustBeOneCleared

/-- SETOPT must not set bit 12 or bits 7:0 (R143). -/
def checkReservedBits (w : Half) : Option AbortCode := require (optKeepsReserved w) .reservedOptionBits

/-- P = 1 only while `HV[v] = 1` (R27, R143, R152). -/
def checkHandler (s : State) (v : Vec) (present : Bool) : Option AbortCode :=
  require (!present || s.hvBit v) .presentWithoutHandler

/-- The writes of SETADDR and SETFN: `ENT(v) <- {A[31:16], 0x8E00, cs_in, A[15:0]}`, `HV[v] <- 1` (R141). -/
def State.install (s : State) (v : Vec) (a : Word) : State :=
  (s.setEnt v (packEntry (addrMid a) installedOpt s.csIn (addrLow a))).setHv v true

end Sys2Proof.Machine
end

