-- ==== Sys2Proof/Machine/Entry.lean ====
section
/-! DEFINITION. Descriptor entry encoding (spec/41_entry_encoding.md): CLR, SETADDR, SETFN, SETOPT. The checks
stand in the order of R215. -/

namespace Sys2Proof.Machine

/-- CLR (R140): the slot becomes the default entry, HV 0. -/
def execClr (p : Path) (v : Vec) (s : State) : Result :=
  runCommand s [checkPath p v, checkLive s] ((s.setEnt v defaultEntry).setHv v false)

/-- SETADDR (R141): installs a handler address; the selector is `cs_in` (R31). -/
def execSetAddr (p : Path) (v : Vec) (a : Word) (s : State) : Result :=
  runCommand s [checkPath p v, checkLive s] (s.install v a)

/-- SETFN (R142): SETADDR's writes, once the declared kind is the vector's (R128). -/
def execSetFn (p : Path) (k : HandlerKind) (v : Vec) (a : Word) (s : State) : Result :=
  runCommand s [checkPath p v, checkKind k v, checkLive s] (s.install v a)

/-- SETOPT (R143): the option word verbatim, if it keeps the fixed bits and P needs no missing handler. -/
def execSetOpt (p : Path) (v : Vec) (w : Half) (s : State) : Result :=
  runCommand s
    [checkPath p v, checkLive s, checkMustBeOne w, checkReservedBits w, checkHandler s v (optPresent w)]
    (s.setOpt v w)

end Sys2Proof.Machine
end

