-- ==== Sys2Proof/Machine/Idtr.lean ====
section
/-! DEFINITION. IDTR load control (spec/44_idtr_load.md): LIDT and PUBLISH. -/

namespace Sys2Proof.Machine

/-- LIDT (R170): any limit and base, while unpublished. -/
def execLidt (limit : Half) (base : Word) (s : State) : Result :=
  runCommand s [checkPrivilege s, checkUnpublished s, checkLoadWindow s]
    (s.setIdtr { limit := limit, base := base })

/-- PUBLISH (R171): `{0x07FF, IDT_BASE}`, once. It reads no slot of the table (R173). -/
def execPublish (s : State) : Result :=
  runCommand s [checkPrivilege s, checkUnpublished s, checkLoadWindow s]
    ((s.setIdtr publishedIdtr).markPublished)

end Sys2Proof.Machine
end

