-- ==== Sys2Proof/Machine/Options.lean ====
section
/-! DEFINITION. Option bitfield accessors (spec/42_option_accessors.md): SETTRAP, SETDPL, SETPRES, GETOPT,
GETTRAP, GETDPL, GETPRES. Each setter writes only its own field; each getter writes only RDATA. -/

namespace Sys2Proof.Machine

/-- SETTRAP (R150): `OPT(v)[8] <- AUX[0]`. -/
def execSetTrap (p : Path) (v : Vec) (aux : Half) (s : State) : Result :=
  runCommand s [checkAuxBit aux, checkPath p v, checkLive s]
    (s.setOpt v (optSetTrap (s.opt v) (auxBit aux)))

/-- SETDPL (R151): `OPT(v)[14:13] <- AUX[1:0]`. -/
def execSetDpl (p : Path) (v : Vec) (aux : Half) (s : State) : Result :=
  runCommand s [checkAuxPair aux, checkPath p v, checkLive s]
    (s.setOpt v (optSetDpl (s.opt v) (auxPair aux)))

/-- SETPRES (R152): `OPT(v)[15] <- AUX[0]`, refused for 1 while `HV[v] = 0`. -/
def execSetPres (p : Path) (v : Vec) (aux : Half) (s : State) : Result :=
  runCommand s [checkAuxBit aux, checkPath p v, checkLive s, checkHandler s v (auxBit aux)]
    (s.setOpt v (optSetPresent (s.opt v) (auxBit aux)))

/-- GETOPT (R153): `RDATA <- zext_64(OPT(v))`. -/
def execGetOpt (p : Path) (v : Vec) (s : State) : Result :=
  runCommand s [checkPath p v] (s.setRdata (zext64 (s.opt v)))

/-- GETTRAP (R154): `RDATA <- zext_64(OPT(v)[8])`. -/
def execGetTrap (p : Path) (v : Vec) (s : State) : Result :=
  runCommand s [checkPath p v] (s.setRdata (zext64 (BitVec.ofBool (optTrap (s.opt v)))))

/-- GETDPL (R155): `RDATA <- zext_64(OPT(v)[14:13])`. -/
def execGetDpl (p : Path) (v : Vec) (s : State) : Result :=
  runCommand s [checkPath p v] (s.setRdata (zext64 (optDpl (s.opt v))))

/-- GETPRES (R156): `RDATA <- zext_64(OPT(v)[15])`. -/
def execGetPres (p : Path) (v : Vec) (s : State) : Result :=
  runCommand s [checkPath p v] (s.setRdata (zext64 (BitVec.ofBool (optPresent (s.opt v)))))

end Sys2Proof.Machine
end

