-- ==== Sys2Proof/Machine/Table.lean ====
section
/-! DEFINITION. Table access (spec/43_table_access.md): the host's whole-entry reads GETENT and GETADDR, and the
gate-reader port. -/

namespace Sys2Proof.Machine

/-- GETENT (R160): `RDATA <- ENT(v)`. -/
def execGetEnt (p : Path) (v : Vec) (s : State) : Result :=
  runCommand s [checkPath p v] (s.setRdata (s.ent v))

/-- GETADDR (R161): `RDATA <- zext_64({MID(v), LOW(v)})`. -/
def execGetAddr (p : Path) (v : Vec) (s : State) : Result :=
  runCommand s [checkPath p v] (s.setRdata (zext64 (entAddress (s.ent v))))

/-- `gate_read(g)` (R163): the limit test is on unbounded numbers, the two address computations wrap modulo
2^32 (R132). -/
def gateRead (s : State) (g : Vec) : GateResult :=
  if s.idtr.limit.toNat < 8 * g.toNat + 7 then .outOfLimit
  else
    let a : Word := s.idtr.base + BitVec.ofNat 32 (8 * g.toNat)
    let d : Nat := (a - Config.idtBase).toNat
    if d ≤ 2040 ∧ d % 8 = 0 then .entry (s.ent (BitVec.ofNat 8 (d / 8))) else .notServed

/-- A read through the gate-reader port drives `gate_data` and changes no state of the block; an abort does not
stop it (R122, R163). -/
def serveGateRead (g : Vec) (s : State) : Result := .next { s with gateData := some (gateRead s g) }

end Sys2Proof.Machine
end

