-- ==== Sys2Proof/Machine/Dispatch.lean ====
section
/-! DEFINITION. One arm per command of the opcode table (spec/30_encoding.md R88). -/

namespace Sys2Proof.Machine

def exec (i : Instr) (s : State) : Host.Outcome State Fault Refusal :=
  match i with
  -- spec/41_entry_encoding.md
  | .clr p v => Sys2Proof.Machine.execClr p v s
  | .setAddr p v a => Sys2Proof.Machine.execSetAddr p v a s
  | .setFn p k v a => Sys2Proof.Machine.execSetFn p k v a s
  | .setOpt p v w => Sys2Proof.Machine.execSetOpt p v w s
  -- spec/42_option_accessors.md
  | .setTrap p v aux => Sys2Proof.Machine.execSetTrap p v aux s
  | .setDpl p v aux => Sys2Proof.Machine.execSetDpl p v aux s
  | .setPres p v aux => Sys2Proof.Machine.execSetPres p v aux s
  | .getEnt p v => Sys2Proof.Machine.execGetEnt p v s
  | .getAddr p v => Sys2Proof.Machine.execGetAddr p v s
  | .getOpt p v => Sys2Proof.Machine.execGetOpt p v s
  | .getTrap p v => Sys2Proof.Machine.execGetTrap p v s
  | .getDpl p v => Sys2Proof.Machine.execGetDpl p v s
  | .getPres p v => Sys2Proof.Machine.execGetPres p v s
  -- spec/44_idtr_load.md
  | .lidt limit base => Sys2Proof.Machine.execLidt limit base s
  | .publish => Sys2Proof.Machine.execPublish s

end Sys2Proof.Machine
end

