-- ==== Sys2Proof/Machine/Trap.lean ====
section
/-! DEFINITION. The CPU's side of the contract the table serves (spec/60_exceptions.md R203 to R213), composed
with the block: taking a trap or interrupt through a gate, and returning from its handler. The block performs
none of it (R202); log 15 says why it is here. -/

namespace Sys2Proof.Machine

/-- The saved IP of R203's column. A software interrupt through a vector whose row names an offending
instruction saves a value the spec does not state (log 16). -/
def savedIp (t : TrapRequest) (draw : Nat) : Word :=
  match savedIpRule t.vec with
  | .offending => if t.cause = .software then Config.freeSavedIp draw else t.faultIp
  | .following => t.nextIp
  | .either => if Config.freeDebugChoice draw then t.faultIp else t.nextIp
  | .anyValue => Config.freeSavedIp draw

/-- The error-code word, for the vectors that carry one; always 0 for 8 and 17 (R203, R206, C3). -/
def savedErrorCode (t : TrapRequest) : Option Word :=
  match errorCodeRule t.vec with
  | .absent => none
  | .alwaysZero => some 0
  | .supplied => some t.errorCode

/-- The frame pushed before control is transferred (R206): the 16-bit selector stands in a 32-bit slot whose
upper half the spec does not state (log 17). -/
def trapFrame (t : TrapRequest) (s : State) : Frame :=
  { vec := t.vec
    errorCode := savedErrorCode t
    ip := savedIp t s.draws
    csSlot := Config.freeCsSlotHigh s.draws ++ s.csIn
    flags := t.flags
    cs := s.csIn
    cpl := s.cplIn
    ifFlag := s.ifIn }

/-- The frame's words from the lowest address: the error code if there is one, IP, CS, flags; no SS and ESP
(R206, D29; log 23). -/
def Frame.words (f : Frame) : List Word := f.errorCode.toList ++ [f.ip, f.csSlot, f.flags]

/-- The one privilege level handlers run at: "The kernel runs in ring 0" (R213), a single-ring kernel that takes every
vector at one level (R216; log 18). -/
def kernelRing : BitVec 2 := 0

/-- Control goes to the gate's offset with CS loaded from its selector (R205), at the kernel's ring (R213, R216). An
interrupt gate turns interrupts off, a trap gate leaves them as they were (R207); the spec states no other flag there. -/
def enterHandler (t : TrapRequest) (e : DWord) (s : State) : State :=
  { s with
    csIn := (decodeGate e).selector
    cplIn := kernelRing
    ifIn := s.ifIn && (decodeGate e).trapGate
    gateData := some (.entry e)
    cpuTarget := some (decodeGate e).offset
    cpuFlags := none
    active := trapFrame t s :: s.active
    draws := s.draws + 1 }

/-- Why a gate cannot be used (R212, R213, I11, I20). The spec gives no order among these faults: naming an absent gate
first, then the DPL, then the handler's convention, is the model's DESIGN CHOICE (log 27). -/
def gateProblem (t : TrapRequest) (e : DWord) (s : State) : Option Fault :=
  if !(decodeGate e).present then some .gateAbsent
  else if t.cause = .software ∧ (decodeGate e).dpl < s.cplIn then some .softwareInterruptDenied
  else if kindOf t.vec = none ∨ t.handler ≠ kindOf t.vec then some .handlerConvention
  else none

/-- The CPU takes a trap or interrupt. A maskable interrupt is not taken while the flag is 0 (R207, R211; log 19).
Dispatch before PUBLISH, out of limit, not served or through an absent gate is a fault of the run, never a
transfer (R212, R243). Which of them is named when several hold, an unpublished table before the gate read and that
before the gate's own faults, is the model's DESIGN CHOICE (log 27). Two more choices stand here: an exception inside an
active handler is served by its own vector, and the double fault comes only as a trap of vector 8 from outside, since the
pairs that make one are open (R211, N8; DESIGN CHOICE, log 29); and any cause is served with any vector, since the spec
gives the CPU no check of the pair (R204; DESIGN CHOICE, log 30). -/
def takeTrap (t : TrapRequest) (s : State) : Result :=
  if t.cause = .device ∧ s.ifIn = false then .next s
  else if s.published = false then .fault .dispatchBeforePublish
  else match gateRead s t.vec with
    | .outOfLimit => .fault .gateOutOfLimit
    | .notServed => .fault .gateNotServed
    | .entry e =>
      match gateProblem t e s with
      | some f => .fault f
      | none => .next (enterHandler t e s)

/-- The innermost handler returns: the interrupted context is resumed, with the saved IP, CS and flags (R210;
log 22). Vectors 8 and 18 never return, and resuming from one is a fault (I2). -/
def returnFromTrap (s : State) : Result :=
  match s.active with
  | [] => .fault .returnWithoutHandler
  | f :: rest =>
    if handlerReturns f.vec then
      .next { s with csIn := f.cs, cplIn := f.cpl, ifIn := f.ifFlag, cpuTarget := some f.ip, cpuFlags := some f.flags,
                     active := rest }
    else .fault .returnFromDiverging

end Sys2Proof.Machine
end

