-- ==== Sys2Proof/Machine/Port.lean ====
section
/-! DEFINITION. What one presentation at the block's ports does (spec/30_encoding.md R80), and where the next
one is found. -/

namespace Sys2Proof.Machine

/-- One command word (R121): an illegal word aborts with code 1 (R92), a legal one is performed; either is
discarded while ABORTED = 1 (R122). -/
def presentWord (cmd : DWord) (s : State) : Result :=
  match decode cmd with
  | .error _ => runCommand s [some .illegalCommand] s
  | .ok i => exec i s

/-- Another agent's store of a byte (R56): outside the window it does not concern the block, inside it the run
is refused. -/
def storeFromOutside (addr : Word) (s : State) : Result :=
  match windowIndex addr 1 with
  | some _ => .refused .foreignStore
  | none => .next s

/-- One input, one step (R9). -/
def serve (x : Input) (s : State) : Result :=
  match x with
  | .command cmd => presentWord cmd s
  | .gateRead g => serveGateRead g s
  | .trap t => takeTrap t s
  | .trapReturn => returnFromTrap s
  | .pins cs cpl ifFlag => .next { s with csIn := cs, cplIn := cpl, ifIn := ifFlag }
  | .foreignStore addr _ => storeFromOutside addr s
  | .reset => .next s.resetBlock

/-- The state with other things still to be presented. -/
def State.setInputs (s : State) (rest : List Input) : State := { s with inputs := rest }

/-- The next input is taken off and served; with none waiting the block idles (R251; log 6). -/
def serveNext (s : State) : Result :=
  match s.inputs with
  | [] => .next s
  | x :: rest => serve x (s.setInputs rest)

/-- The command word of an opcode-table row, the bits above `nbits` zero. -/
def tableCommand (nbits w : Nat) : DWord := BitVec.ofNat 64 (w % 2 ^ nbits)

/-- Commands performed in the order given (R21), each from the state the one before left. -/
def execAll : List Instr → State → Result
  | [], s => .next s
  | i :: is, s =>
    match exec i s with
    | .next t => execAll is t
    | .fault f => .fault f
    | .refused r => .refused r

end Sys2Proof.Machine
end

