-- ==== Sys2Proof/Machine/Step.lean ====
section
/-! DEFINITION. One step of the block and its surroundings (spec/00_scope.md R9). -/

namespace Sys2Proof.Machine

/-- One step: the next thing the outside presents is served. -/
def step (s : State) : Host.Outcome State Fault Refusal := serveNext s

/-- The state with a command word as the next thing the host presents (log 7). -/
def State.withFetchWord (s : State) (nbits w : Nat) : State :=
  { s with inputs := .command (tableCommand nbits w) :: s.inputs }

end Sys2Proof.Machine
end

