-- ==== Sys2Proof/Machine/Asm.lean ====
section
/-! DEFINITION. The assembler's syntax (spec/30_encoding.md R95), its pseudo-instructions (R96) and the total
disassembler (R97). -/

namespace Sys2Proof.Machine

/-- One line of assembly, with its operands as the numbers written (R95, R96). -/
inductive AsmLine where
  | clr (p : Path) (v : Nat)
  | setAddr (p : Path) (v addr : Nat)
  | setFn (p : Path) (v : Nat) (k : HandlerKind) (addr : Nat)
  | setOpt (p : Path) (v word : Nat)
  | setTrap (p : Path) (v b : Nat)
  | setDpl (p : Path) (v d : Nat)
  | setPres (p : Path) (v b : Nat)
  | getEnt (p : Path) (v : Nat)
  | getAddr (p : Path) (v : Nat)
  | getOpt (p : Path) (v : Nat)
  | getTrap (p : Path) (v : Nat)
  | getDpl (p : Path) (v : Nat)
  | getPres (p : Path) (v : Nat)
  | lidt (limit base : Nat)
  | publish
  | installN (v : Nat) (k : HandlerKind) (addr : Nat)
  | installI (v addr : Nat)
  | trapGate (p : Path) (v addr : Nat)
  | userGate (p : Path) (v addr : Nat)
  deriving DecidableEq, Repr

/-- A vector operand is 0 to 255 (R95). -/
def vecInRange (v : Nat) : Bool := v < 2 ^ 8

/-- A word or limit operand is 0 to 0xFFFF (R95). -/
def halfInRange (w : Nat) : Bool := w < 2 ^ 16

/-- An address or base operand is 0 to 2^32 - 1 (R95). -/
def wordInRange (a : Nat) : Bool := a < 2 ^ 32

/-- Every operand is in its field's range; outside it is an assembly error, never truncated (R95). -/
def AsmLine.inRange : AsmLine → Bool
  | .clr _ v => vecInRange v
  | .setAddr _ v a => vecInRange v && wordInRange a
  | .setFn _ v _ a => vecInRange v && wordInRange a
  | .setOpt _ v w => vecInRange v && halfInRange w
  | .setTrap _ v b => vecInRange v && decide (b < 2)
  | .setDpl _ v d => vecInRange v && decide (d < 4)
  | .setPres _ v b => vecInRange v && decide (b < 2)
  | .getEnt _ v => vecInRange v
  | .getAddr _ v => vecInRange v
  | .getOpt _ v => vecInRange v
  | .getTrap _ v => vecInRange v
  | .getDpl _ v => vecInRange v
  | .getPres _ v => vecInRange v
  | .lidt l b => halfInRange l && wordInRange b
  | .publish => true
  | .installN v _ a => vecInRange v && wordInRange a
  | .installI v a => vecInRange v && wordInRange a
  | .trapGate _ v a => vecInRange v && wordInRange a
  | .userGate _ v a => vecInRange v && wordInRange a

/-- The commands a line stands for, pseudo-instructions expanded in order (R95, R96). -/
def AsmLine.expand : AsmLine → List Instr
  | .clr p v => [.clr p (.ofNat 8 v)]
  | .setAddr p v a => [.setAddr p (.ofNat 8 v) (.ofNat 32 a)]
  | .setFn p v k a => [.setFn p k (.ofNat 8 v) (.ofNat 32 a)]
  | .setOpt p v w => [.setOpt p (.ofNat 8 v) (.ofNat 16 w)]
  | .setTrap p v b => [.setTrap p (.ofNat 8 v) (.ofNat 16 b)]
  | .setDpl p v d => [.setDpl p (.ofNat 8 v) (.ofNat 16 d)]
  | .setPres p v b => [.setPres p (.ofNat 8 v) (.ofNat 16 b)]
  | .getEnt p v => [.getEnt p (.ofNat 8 v)]
  | .getAddr p v => [.getAddr p (.ofNat 8 v)]
  | .getOpt p v => [.getOpt p (.ofNat 8 v)]
  | .getTrap p v => [.getTrap p (.ofNat 8 v)]
  | .getDpl p v => [.getDpl p (.ofNat 8 v)]
  | .getPres p v => [.getPres p (.ofNat 8 v)]
  | .lidt l b => [.lidt (.ofNat 16 l) (.ofNat 32 b)]
  | .publish => [.publish]
  | .installN v k a => [.setFn .named k (.ofNat 8 v) (.ofNat 32 a)]
  | .installI v a => [.setFn .indexed .plain (.ofNat 8 v) (.ofNat 32 a)]
  | .trapGate p v a => [.setAddr p (.ofNat 8 v) (.ofNat 32 a), .setTrap p (.ofNat 8 v) 1]
  | .userGate p v a => [.setAddr p (.ofNat 8 v) (.ofNat 32 a), .setDpl p (.ofNat 8 v) 3]

/-- The command words of a line; none is an assembly error (R95). -/
def assemble (l : AsmLine) : Option (List DWord) :=
  if l.inRange then some (l.expand.map encode) else none

/-! ### Disassembly (R97) -/

/-- One digit of a number in base 16 or 10. -/
def digitChar (d : Nat) : Char :=
  match d with
  | 0 => '0' | 1 => '1' | 2 => '2' | 3 => '3' | 4 => '4' | 5 => '5' | 6 => '6' | 7 => '7'
  | 8 => '8' | 9 => '9' | 10 => 'A' | 11 => 'B' | 12 => 'C' | 13 => 'D' | 14 => 'E' | _ => 'F'

/-- The low `n` hexadecimal digits, most significant first. -/
def hexDigits : Nat → Nat → List Char
  | 0, _ => []
  | n + 1, x => hexDigits n (x / 16) ++ [digitChar (x % 16)]

/-- `0x` and `n` hexadecimal digits. -/
def hexText (n x : Nat) : List Char := '0' :: 'x' :: hexDigits n x

/-- A number below 1000 in decimal, no leading zero. -/
def decText (x : Nat) : List Char :=
  if x < 10 then [digitChar x]
  else if x < 100 then [digitChar (x / 10), digitChar (x % 10)]
  else [digitChar (x / 100), digitChar (x / 10 % 10), digitChar (x % 10)]

/-- The mnemonic of an operation (R88). -/
def opText : Op → List Char
  | .clr => ['C', 'L', 'R']
  | .setAddr => ['S', 'E', 'T', 'A', 'D', 'D', 'R']
  | .setFn => ['S', 'E', 'T', 'F', 'N']
  | .setOpt => ['S', 'E', 'T', 'O', 'P', 'T']
  | .setTrap => ['S', 'E', 'T', 'T', 'R', 'A', 'P']
  | .setDpl => ['S', 'E', 'T', 'D', 'P', 'L']
  | .setPres => ['S', 'E', 'T', 'P', 'R', 'E', 'S']
  | .getEnt => ['G', 'E', 'T', 'E', 'N', 'T']
  | .getAddr => ['G', 'E', 'T', 'A', 'D', 'D', 'R']
  | .getOpt => ['G', 'E', 'T', 'O', 'P', 'T']
  | .getTrap => ['G', 'E', 'T', 'T', 'R', 'A', 'P']
  | .getDpl => ['G', 'E', 'T', 'D', 'P', 'L']
  | .getPres => ['G', 'E', 'T', 'P', 'R', 'E', 'S']
  | .lidt => ['L', 'I', 'D', 'T']
  | .publish => ['P', 'U', 'B', 'L', 'I', 'S', 'H']

/-- The path suffix, `I` or `N` (R95). -/
def pathText : Path → List Char
  | .indexed => ['I']
  | .named => ['N']

/-- The kind operand, `PLAIN`, `ERR`, `DIV` or `DIVERR` (R95). -/
def kindText : HandlerKind → List Char
  | .plain => ['P', 'L', 'A', 'I', 'N']
  | .withErrorCode => ['E', 'R', 'R']
  | .diverging => ['D', 'I', 'V']
  | .divergingWithErrorCode => ['D', 'I', 'V', 'E', 'R', 'R']

/-- `MNEMONIC.P vec` (R95). -/
def entryText (o : Op) (p : Path) (v : Vec) : List Char :=
  opText o ++ '.' :: pathText p ++ ' ' :: decText v.toNat

/-- A further operand, after a comma and a space. -/
def operandText (x : List Char) : List Char := ',' :: ' ' :: x

/-- A command in the syntax of R95; the forms of the numbers are the model's choice (log 25). -/
def instrText : Instr → List Char
  | .clr p v => entryText .clr p v
  | .setAddr p v a => entryText .setAddr p v ++ operandText (hexText 8 a.toNat)
  | .setFn p k v a => entryText .setFn p v ++ operandText (kindText k) ++ operandText (hexText 8 a.toNat)
  | .setOpt p v w => entryText .setOpt p v ++ operandText (hexText 4 w.toNat)
  | .setTrap p v aux => entryText .setTrap p v ++ operandText (decText aux.toNat)
  | .setDpl p v aux => entryText .setDpl p v ++ operandText (decText aux.toNat)
  | .setPres p v aux => entryText .setPres p v ++ operandText (decText aux.toNat)
  | .getEnt p v => entryText .getEnt p v
  | .getAddr p v => entryText .getAddr p v
  | .getOpt p v => entryText .getOpt p v
  | .getTrap p v => entryText .getTrap p v
  | .getDpl p v => entryText .getDpl p v
  | .getPres p v => entryText .getPres p v
  | .lidt limit base => opText .lidt ++ ' ' :: hexText 4 limit.toNat ++ operandText (hexText 8 base.toNat)
  | .publish => opText .publish

/-- Every word is a legal command in the syntax of R95, or `.illegal` and its 16 hexadecimal digits (R97). -/
def disassemble (cmd : DWord) : List Char :=
  match decode cmd with
  | .ok i => instrText i
  | .error _ => ['.', 'i', 'l', 'l', 'e', 'g', 'a', 'l', ' '] ++ hexText 16 cmd.toNat

end Sys2Proof.Machine
end

