-- ==== Sys2Proof/Machine/Run.lean ====
section
/-! DEFINITION. A run of the block and its end (spec/70_reset_and_hazards.md R251). -/

namespace Sys2Proof.Machine

/-- One event of a run: a host command with the `cs_in`, `cpl_in` and `if_in` it samples, or a gate read (R251). -/
inductive RunEvent where
  | command (cmd : DWord) (cs : Half) (cpl : BitVec 2) (ifFlag : Bool)
  | gateRead (g : Vec)
  deriving DecidableEq, Repr

/-- The event is a host command. -/
def RunEvent.isCommand : RunEvent → Bool
  | .command _ _ _ _ => true
  | .gateRead _ => false

/-- What the outside presents for an event: the pins before the command that samples them (log 4). -/
def RunEvent.inputs : RunEvent → List Input
  | .command cmd cs cpl ifFlag => [.pins cs cpl ifFlag, .command cmd]
  | .gateRead g => [.gateRead g]

/-- What the outside presents for a sequence of events. -/
def runInputs (events : List RunEvent) : List Input := events.flatMap RunEvent.inputs

/-- The input is a host command. -/
def Input.isCommand : Input → Bool
  | .command _ => true
  | .gateRead _ | .trap _ | .trapReturn | .pins _ _ _ | .foreignStore _ _ | .reset => false

/-- "The run ends when the last command's step has completed" (R251): no command is waiting. What else waits, gate reads
among it, is after the run. -/
def State.ended (s : State) : Bool := !s.inputs.any Input.isCommand

/-- How many steps take the last command waiting, one step for each input up to it (R9). -/
def stepsToEnd : List Input → Nat
  | [] => 0
  | x :: rest => if (x :: rest).any Input.isCommand then stepsToEnd rest + 1 else 0

/-- The run from a state to its end (R251). -/
def runToEnd (s : State) : Result := Host.Core.run core (stepsToEnd s.inputs) s

/-- The outcome of a run: "TBL, HV, IDTR, PUBLISHED, ABORTED, ERR and RDATA" of its final state (R251). -/
structure RunOutcome where
  tbl       : Memory
  hv        : BitVec 256
  idtr      : Idtr
  published : Bool
  aborted   : Bool
  err       : BitVec 4
  rdata     : DWord
  deriving DecidableEq, Repr

/-- The outcome a final state holds (R251). -/
def State.outcome (s : State) : RunOutcome :=
  { tbl := s.tbl, hv := s.hv, idtr := s.idtr, published := s.published, aborted := s.aborted, err := s.err,
    rdata := s.rdata }

end Sys2Proof.Machine
end

