-- ==== Sys2Proof/Safety.lean ====
section
/-! DEFINITION. What counts as a good state and a successful run (spec/70_reset_and_hazards.md R251), the whole-machine
invariants of the spec, and what "unchanged" means in a frame. -/

namespace Sys2Proof.Machine

/-! ### Runs (R251) -/

/-- The run is over and its outcome is successful: "ABORTED = 0 at the end" (R251). -/
abbrev State.completed (s : State) : Prop := s.ended = true ∧ s.aborted = false

/-- The run is over and its outcome is a faulted one: ABORTED = 1 (R251). -/
abbrev State.faulted (s : State) : Prop := s.ended = true ∧ s.aborted = true

/-- A launch state (R242, R251): reset, with a code selector and what the outside will present. -/
def launchState (cs : Half) (inputs : List Input) : State := { State.reset with csIn := cs, inputs := inputs }

/-! ### Invariants -/

/-- The table memory is in its canonical form. -/
abbrev State.tableCanonical (s : State) : Prop := Memory.wf s.tbl = true

/-- The hardwired columns of R24 hold in every slot: only the 16 words of R86 are stored. -/
def State.optionsLegal (s : State) : Prop := ∀ v : Vec, optLegal (s.opt v) = true

/-- P = 1 only while `HV[v] = 1` (R24, R144). -/
def State.presentInstalled (s : State) : Prop :=
  ∀ v : Vec, optPresent (s.opt v) = true → s.hvBit v = true

/-- No reserved vector is present (R129). -/
def State.reservedAbsent (s : State) : Prop :=
  ∀ v : Vec, classOf v = .reserved → optPresent (s.opt v) = false

/-- While PUBLISHED = 1, IDTR = {0x07FF, IDT_BASE} (R172). -/
def State.publishedTable (s : State) : Prop := s.published = true → s.idtr = publishedIdtr

/-- ERR is 0 without an abort and 1 to 13 with one (R29, R200). -/
def State.errConsistent (s : State) : Prop :=
  if s.aborted = true then 1 ≤ s.err.toNat ∧ s.err.toNat ≤ 13 else s.err = 0

/-- All of them together. -/
structure State.Inv (s : State) : Prop where
  tableCanonical   : s.tableCanonical
  optionsLegal     : s.optionsLegal
  presentInstalled : s.presentInstalled
  reservedAbsent   : s.reservedAbsent
  publishedTable   : s.publishedTable
  errConsistent    : s.errConsistent

/-! ### What a command may leave unchanged -/

/-- The CPU's inputs and the records of the ports are unchanged: no command touches them (R31 to R33, R202). -/
def SamePorts (s t : State) : Prop :=
  t.csIn = s.csIn ∧ t.cplIn = s.cplIn ∧ t.ifIn = s.ifIn ∧ t.inputs = s.inputs ∧ t.gateData = s.gateData ∧
    t.cpuTarget = s.cpuTarget ∧ t.cpuFlags = s.cpuFlags ∧ t.active = s.active ∧ t.draws = s.draws

/-- IDTR and PUBLISHED are unchanged. -/
def SameLoad (s t : State) : Prop := t.idtr = s.idtr ∧ t.published = s.published

/-- ABORTED and ERR are unchanged. -/
def SameAbort (s t : State) : Prop := t.aborted = s.aborted ∧ t.err = s.err

/-- Every byte of the table reads as before. -/
def SameTable (s t : State) : Prop := ∀ i : Nat, i < 2048 → t.tblByte i = s.tblByte i

/-- Every byte of the table outside slot v reads as before; the 8 stored bytes start at `slotIndex v` (R55). -/
def SameTableOutside (s t : State) (v : Vec) : Prop :=
  ∀ i : Nat, i < 2048 → (i < slotIndex v ∨ slotIndex v + 8 ≤ i) → t.tblByte i = s.tblByte i

/-- Every handler-valid bit but v's is unchanged. -/
def SameHvOutside (s t : State) (v : Vec) : Prop := ∀ u : Vec, u ≠ v → t.hvBit u = s.hvBit u

end Sys2Proof.Machine
end

