-- ==== Sys2Proof/Certificates/Slice0/Obligations.lean ====
section
/-! DEFINITION. The statements for the provers. Each docstring names the rule of spec/ it formalises, or the
section it rests on; where a clause is the model's choice it names the log entry. -/

open Sys2Proof Sys2Proof.Machine

/-! ### Encoding (spec/30_encoding.md) -/

/-- Words written out in spec/95_test_vectors.md 2.1 and 2.2 decode to the commands beside them, or are rejected. -/
def Obligations.SpecWordsDecode : Prop :=
  decode 0x1020000000000000 = .ok (.clr .indexed 32) ∧
  decode 0x3A0E000000100B40 = .ok (.setFn .named .withErrorCode 14 0x00100B40) ∧
  decode 0x3E08000000100C80 = .ok (.setFn .named .divergingWithErrorCode 8 0x00100C80) ∧
  decode 0x4080EF0000000000 = .ok (.setOpt .indexed 128 0xEF00) ∧
  decode 0x6080000300000000 = .ok (.setDpl .indexed 128 3) ∧
  decode 0xD80E000000000000 = .ok (.getPres .named 14) ∧
  decode 0xE00007FF00104000 = .ok (.lidt 0x07FF 0x00104000) ∧
  decode 0xF000000000000000 = .ok .publish ∧
  decode 0x0FFFFFFFFFFFFFFF = .error .opZero ∧
  decode 0x2120000000001000 = .error .reservedBit ∧
  decode 0x6020000400000000 = .error .unusedField ∧
  decode 0xE80007FF00104000 = .error .unusedField

/-- Decoding the word of a well-formed command gives it back, with every operand at every value its field
admits (30_encoding.md, operand assembly and assembler syntax). -/
def Obligations.DecodeOfEncode : Prop :=
  ∀ i : Instr, i.wellFormed = true → decode (encode i) = .ok i

/-- Every legal word has one meaning: it is the word of the command it decodes to, and that command is well-formed
(30_encoding.md, reserved and illegal encodings). -/
def Obligations.EncodeOfDecode : Prop :=
  ∀ (w : DWord) (i : Instr), decode w = .ok i → i.wellFormed = true ∧ encode i = w

/-- A word is legal exactly when `(cmd & mask) = match` for the row of some command (30_encoding.md, illegal command
words). -/
def Obligations.LegalIffRowMatches : Prop :=
  ∀ w : DWord, (∃ i : Instr, decode w = .ok i) ↔ ∃ o : Op, o.matchesWord w = true

/-- At most one row of the opcode table matches a word (30_encoding.md, opcode map). -/
def Obligations.RowsDoNotOverlap : Prop :=
  ∀ (w : DWord) (o o' : Op), o.matchesWord w = true → o'.matchesWord w = true → o = o'

/-- The operand ranges of a line, as R95 gives them: vec 0 to 255, addr and base 0 to 2^32 - 1, word and limit 0 to
0xFFFF, b 0 to 1, d 0 to 3; a pseudo-instruction's are those of its commands (R96). -/
def lineRanges : AsmLine → Prop
  | .clr _ v => v ≤ 255
  | .setAddr _ v a => v ≤ 255 ∧ a < 2 ^ 32
  | .setFn _ v _ a => v ≤ 255 ∧ a < 2 ^ 32
  | .setOpt _ v w => v ≤ 255 ∧ w ≤ 0xFFFF
  | .setTrap _ v b => v ≤ 255 ∧ b ≤ 1
  | .setDpl _ v d => v ≤ 255 ∧ d ≤ 3
  | .setPres _ v b => v ≤ 255 ∧ b ≤ 1
  | .getEnt _ v => v ≤ 255
  | .getAddr _ v => v ≤ 255
  | .getOpt _ v => v ≤ 255
  | .getTrap _ v => v ≤ 255
  | .getDpl _ v => v ≤ 255
  | .getPres _ v => v ≤ 255
  | .lidt l b => l ≤ 0xFFFF ∧ b < 2 ^ 32
  | .publish => True
  | .installN v _ a => v ≤ 255 ∧ a < 2 ^ 32
  | .installI v a => v ≤ 255 ∧ a < 2 ^ 32
  | .trapGate _ v a => v ≤ 255 ∧ a < 2 ^ 32
  | .userGate _ v a => v ≤ 255 ∧ a < 2 ^ 32

/-- The commands of a line: its own (R95), or the expansion R96's table gives, in order. -/
def lineCommands : AsmLine → List Instr
  | .clr p v => [.clr p (.ofNat 8 v)]
  | .setAddr p v a => [.setAddr p (.ofNat 8 v) (.ofNat 32 a)]
  | .setFn p v k a => [.setFn p k (.ofNat 8 v) (.ofNat 32 a)]
  | .setOpt p v w => [.setOpt p (.ofNat 8 v) (.ofNat 16 w)]
  | .setTrap p v b => [.setTrap p (.ofNat 8 v) (.ofNat 16 b)]
  | .setDpl p v d => [.setDpl p (.ofNat 8 v) (.ofNat 16 d)]
  | .setPres p v b => [.setPres p (.ofNat 8 v) (.ofNat 16 b)]
  | .getEnt p v => [.getEnt p (.ofNat 8 v)]
  | .getAddr p v => [.getAddr p (.ofNat 8 v)]
  | .getOpt p v => [.getOpt p (.ofNat 8 v)]
  | .getTrap p v => [.getTrap p (.ofNat 8 v)]
  | .getDpl p v => [.getDpl p (.ofNat 8 v)]
  | .getPres p v => [.getPres p (.ofNat 8 v)]
  | .lidt l b => [.lidt (.ofNat 16 l) (.ofNat 32 b)]
  | .publish => [.publish]
  | .installN v k a => [.setFn .named k (.ofNat 8 v) (.ofNat 32 a)]
  | .installI v a => [.setFn .indexed .plain (.ofNat 8 v) (.ofNat 32 a)]
  | .trapGate p v a => [.setAddr p (.ofNat 8 v) (.ofNat 32 a), .setTrap p (.ofNat 8 v) 1]
  | .userGate p v a => [.setAddr p (.ofNat 8 v) (.ofNat 32 a), .setDpl p (.ofNat 8 v) 3]

/-- A line whose operands are in R95's ranges assembles to legal words that decode, in order, to its commands, those of
R96 for a pseudo-instruction; any other line is an error; the model's range check and expansion are R95's and R96's
(30_encoding.md, assembler syntax and pseudo-instructions). -/
def Obligations.AssembledWordsDecode : Prop :=
  ∀ l : AsmLine,
    (lineRanges l → ∃ ws, assemble l = some ws ∧ ws.map decode = (lineCommands l).map Except.ok) ∧
    (¬ lineRanges l → assemble l = none) ∧
    (l.inRange = true ↔ lineRanges l) ∧ l.expand = lineCommands l ∧
    (l.inRange = true →
      ∃ ws, assemble l = some ws ∧ ws.map decode = l.expand.map Except.ok) ∧
    (l.inRange = false → assemble l = none)

/-- No two legal words print alike (30_encoding.md, disassembly; the number forms are the model's choice, log 25). -/
def Obligations.LegalWordsPrintApart : Prop :=
  ∀ (w x : DWord) (i j : Instr), decode w = .ok i → decode x = .ok j → disassemble w = disassemble x → w = x

/-- The two-command pseudo-instructions give a ring-0 trap gate and a ring-3 interrupt gate at the address
(30_encoding.md, pseudo-instructions and option word values). -/
def Obligations.PseudoInstructionsInstallGates : Prop :=
  ∀ (p : Path) (v addr : Nat) (s : State), (AsmLine.trapGate p v addr).inRange = true → s.aborted = false →
    s.tableCanonical → checkPath p (.ofNat 8 v) = none → s.ifIn = false →
    (∃ t, execAll (AsmLine.trapGate p v addr).expand s = .next t ∧ t.aborted = false ∧
      t.opt (.ofNat 8 v) = 0x8F00 ∧ entAddress (t.ent (.ofNat 8 v)) = .ofNat 32 addr) ∧
    (∃ t, execAll (AsmLine.userGate p v addr).expand s = .next t ∧ t.aborted = false ∧
      t.opt (.ofNat 8 v) = 0xEE00 ∧ entAddress (t.ent (.ofNat 8 v)) = .ofNat 32 addr)

/-- R89: the address split and its reconstruction, as numbers and as words. -/
def Obligations.AddressSplitIsExact : Prop :=
  (∀ a : Word, (addrLow a).toNat = a.toNat % 65536 ∧ (addrMid a).toNat = a.toNat / 65536) ∧
  (∀ mid low : Half, (addrJoin mid low).toNat = mid.toNat * 65536 + low.toNat) ∧
  (∀ a : Word, addrJoin (addrMid a) (addrLow a) = a) ∧
  addrLow 0xC0DE1234 = 0x1234 ∧ addrMid 0xC0DE1234 = 0xC0DE

/-- The words that may stand in an entry are exactly the 16 words `0x0E00 | P<<15 | DPL<<13 | T<<8`
(30_encoding.md, option word values). -/
def Obligations.SixteenLegalOptionWords : Prop :=
  ∀ w : Half, optLegal w = true ↔
    ∃ (present : Bool) (dpl : BitVec 2) (trap : Bool),
      w.toNat = 0x0E00 + present.toNat * 2 ^ 15 + dpl.toNat * 2 ^ 13 + trap.toNat * 2 ^ 8

/-- R87: the six bytes are the limit, then the base, little-endian; in a command word the limit is AUX and the base
DATA; PUBLISH loads `FF 07` and `IDT_BASE`. -/
def Obligations.IdtrImageIsLimitThenBase : Prop :=
  (∀ r : Idtr, (idtrImage r).length = 6 ∧
    ((idtrImage r).take 2).foldr (fun b n => b.toNat + 256 * n) 0 = r.limit.toNat ∧
    ((idtrImage r).drop 2).foldr (fun b n => b.toNat + 256 * n) 0 = r.base.toNat) ∧
  (∀ (limit : Half) (base : Word), (encode (.lidt limit base)).extractLsb' 32 16 = limit ∧
    (encode (.lidt limit base)).extractLsb' 0 32 = base) ∧
  (∀ s t : State, exec .publish s = .next t → s.aborted = false → t.aborted = false →
    (idtrImage t.idtr).take 2 = [0xFF, 0x07] ∧
    ((idtrImage t.idtr).drop 2).foldr (fun b n => b.toNat + 256 * n) 0 = Config.idtBase.toNat) ∧
  idtrImage { limit := 0x07FF, base := 0x00104000 } = [0xFF, 0x07, 0x00, 0x40, 0x10, 0x00]

/-! ### The step -/

/-- A presented word that decodes is performed as exec of its command, from the state with the input taken off
(30_encoding.md, command port). -/
def Obligations.StepPerformsDecodedCommand : Prop :=
  ∀ (s : State) (w : DWord) (i : Instr) (rest : List Input), s.inputs = .command w :: rest → decode w = .ok i →
    step s = exec i { s with inputs := rest }

/-- A word of the opcode table placed with `withFetchWord` is the next thing performed (log 7). -/
def Obligations.PlacedWordRunsNext : Prop :=
  ∀ (s : State) (w : Nat) (i : Instr), decodeTableWord 64 w = some i → step (s.withFetchWord 64 w) = exec i s

/-- An illegal word aborts with code 1 and changes nothing else (30_encoding.md, illegal command words;
40_command_execution.md, check order). -/
def Obligations.IllegalWordAborts : Prop :=
  ∀ (s : State) (w : DWord) (e : DecodeError) (rest : List Input), s.inputs = .command w :: rest →
    decode w = .error e → s.aborted = false →
    step s = .next { s with inputs := rest, aborted := true, err := 1 }

/-- Every command step completes (70_reset_and_hazards.md, timing). -/
def Obligations.EveryCommandCompletes : Prop :=
  ∀ (w : DWord) (s : State), ∃ t, presentWord w s = .next t

/-! ### Abort (spec/40_command_execution.md) -/

/-- R122: a failing command sets ABORTED and ERR and performs none of its writes; while ABORTED = 1 a command changes
nothing; only a reset clears ABORTED; the gate reader goes on reading the same table and IDTR. -/
def Obligations.AbortWritesOnlyItsCode : Prop :=
  (∀ (w : DWord) (s t : State), presentWord w s = .next t →
    (s.aborted = false → t.aborted = true → ∃ c : AbortCode, t = { s with aborted := true, err := c.code }) ∧
    (s.aborted = true → t = s) ∧
    (t.aborted = true → ∀ g : Vec, gateRead t g = gateRead s g)) ∧
  (∀ s t : State, step s = .next t → s.aborted = true → t.aborted = false → s.inputs.head? = some .reset)

/-- From an abort on, any number of steps without a reset leaves the whole block as it stands, so an abort before
PUBLISH leaves the table unpublished (40_command_execution.md, abort; 70_reset_and_hazards.md, kind-correct wiring). -/
def Obligations.AbortFreezesBlockUntilReset : Prop :=
  ∀ (k : Nat) (s t : State), s.aborted = true → Input.reset ∉ s.inputs → Host.Core.run core k s = .next t →
    t.tbl = s.tbl ∧ t.hv = s.hv ∧ t.idtr = s.idtr ∧ t.published = s.published ∧ t.aborted = true ∧ t.err = s.err ∧
      t.rdata = s.rdata

/-- R125: on the indexed path every entry command aborts with 2, 3 or 4 for the three failing sets, and with none
of them for every other vector. -/
def Obligations.IndexedPathCodes : Prop :=
  ∀ (i : Instr) (v : Vec) (s : State), i.slot? = some (.indexed, v) → i.wellFormed = true → s.aborted = false →
    ∃ t, exec i s = .next t ∧
      (v.toNat ∈ [9, 15, 20, 21, 22, 23, 24, 25, 26, 27, 28, 29, 31] → t = { s with aborted := true, err := 2 }) ∧
      (v.toNat ∈ [8, 10, 11, 12, 13, 14, 17, 30] → t = { s with aborted := true, err := 3 }) ∧
      (v.toNat = 18 → t = { s with aborted := true, err := 4 }) ∧
      (v.toNat ≤ 7 ∨ v.toNat = 16 ∨ v.toNat = 19 ∨ 32 ≤ v.toNat →
        t.aborted = true → t.err.toNat ∉ [2, 3, 4, 5])

/-- The named set with its kinds (R127). -/
def namedTable : List (Nat × HandlerKind) :=
  [(0, .plain), (1, .plain), (3, .plain), (4, .plain), (5, .plain), (6, .plain), (7, .plain),
   (8, .divergingWithErrorCode), (10, .withErrorCode), (11, .withErrorCode), (12, .withErrorCode),
   (13, .withErrorCode), (14, .withErrorCode), (16, .plain), (17, .withErrorCode), (18, .diverging), (19, .plain),
   (30, .withErrorCode)]

/-- R127: on the named path every entry command aborts with 5 outside the 18 named vectors, and with no path code
inside them; their kinds are the table's. -/
def Obligations.NamedPathCode : Prop :=
  (∀ (i : Instr) (v : Vec) (s : State), i.slot? = some (.named, v) → i.wellFormed = true → s.aborted = false →
    ∃ t, exec i s = .next t ∧
      (v.toNat ∉ namedTable.map Prod.fst → t = { s with aborted := true, err := 5 }) ∧
      (v.toNat ∈ namedTable.map Prod.fst → t.aborted = true → t.err.toNat ∉ [2, 3, 4, 5])) ∧
  (∀ (v : Vec) (k : HandlerKind), (v.toNat, k) ∈ namedTable → kindOf v = some k)

/-- R124: class and kind of every vector. -/
def Obligations.VectorClassification : Prop :=
  ∀ v : Vec,
    (v.toNat ≤ 7 ∨ v.toNat = 16 ∨ v.toNat = 19 → classOf v = .defined ∧ kindOf v = some .plain) ∧
    (v.toNat = 8 → classOf v = .defined ∧ kindOf v = some .divergingWithErrorCode) ∧
    (10 ≤ v.toNat ∧ v.toNat ≤ 14 ∨ v.toNat = 17 ∨ v.toNat = 30 →
      classOf v = .defined ∧ kindOf v = some .withErrorCode) ∧
    (v.toNat = 18 → classOf v = .defined ∧ kindOf v = some .diverging) ∧
    (v.toNat = 9 ∨ v.toNat = 15 ∨ 20 ≤ v.toNat ∧ v.toNat ≤ 29 ∨ v.toNat = 31 →
      classOf v = .reserved ∧ kindOf v = none) ∧
    (32 ≤ v.toNat → classOf v = .device ∧ kindOf v = some .plain)

/-- R126: a mutating entry command with `if_in = 1` whose earlier checks pass aborts with 10 and changes nothing,
published or not; a reading entry command does the same whatever `if_in` is; LIDT and PUBLISH apply their own check. -/
def Obligations.MutationNeedsInterruptsOff : Prop :=
  (∀ (i : Instr) (p : Path) (v : Vec) (s : State), i.op.commandClass = .mutating → i.slot? = some (p, v) →
    i.wellFormed = true → s.aborted = false → checkPath p v = none →
    (∀ k a, i = .setFn p k v a → kindOf v = some k) → s.ifIn = true →
    exec i s = .next { s with aborted := true, err := 10 }) ∧
  (∀ (i : Instr) (s t : State) (b : Bool), i.op.commandClass = .reading → exec i s = .next t →
    exec i { s with ifIn := b } = .next { t with ifIn := b }) ∧
  (∀ (i : Instr) (s : State), i.op.commandClass = .idtrLoad → s.aborted = false → s.cplIn = 0 →
    s.published = false → s.ifIn = true → exec i s = .next { s with aborted := true, err := 13 })

/-- R32: LIDT and PUBLISH abort unless `cpl_in` is 0; no other command reads it. -/
def Obligations.OnlyLoadsReadPrivilege : Prop :=
  (∀ (i : Instr) (s : State), i.op.commandClass = .idtrLoad → s.aborted = false → s.cplIn ≠ 0 →
    exec i s = .next { s with aborted := true, err := 11 }) ∧
  (∀ (i : Instr) (s t : State) (c : BitVec 2), i.op.commandClass ≠ .idtrLoad → exec i s = .next t →
    exec i { s with cplIn := c } = .next { t with cplIn := c })

/-! ### Descriptor entry encoding (spec/41_entry_encoding.md) -/

/-- R140: CLR makes the slot the default entry and clears HV, or aborts by its checks in order. -/
def Obligations.ClrResetsSlot : Prop :=
  ∀ (p : Path) (v : Vec) (s : State), s.aborted = false → s.tableCanonical →
    (checkPath p v = none → s.ifIn = false →
      ∃ t, exec (.clr p v) s = .next t ∧ t.ent v = 0x00000E0000000000 ∧ t.hvBit v = false ∧ t.aborted = false) ∧
    (∀ c, checkPath p v = some c → exec (.clr p v) s = .next (s.abort c)) ∧
    (checkPath p v = none → s.ifIn = true → exec (.clr p v) s = .next (s.abort .liveMutation))

/-- R141: SETADDR stores `{A[31:16], 0x8E00, cs_in, A[15:0]}` and sets HV, for every address; or aborts by its
checks in order. -/
def Obligations.SetAddrInstallsGate : Prop :=
  ∀ (p : Path) (v : Vec) (a : Word) (s : State), s.aborted = false → s.tableCanonical →
    (checkPath p v = none → s.ifIn = false →
      ∃ t, exec (.setAddr p v a) s = .next t ∧
        t.ent v = a.extractLsb' 16 16 ++ 0x8E00#16 ++ s.csIn ++ a.extractLsb' 0 16 ∧ t.hvBit v = true ∧
        t.aborted = false) ∧
    (∀ c, checkPath p v = some c → exec (.setAddr p v a) s = .next (s.abort c)) ∧
    (checkPath p v = none → s.ifIn = true → exec (.setAddr p v a) s = .next (s.abort .liveMutation))

/-- R142: SETFN performs SETADDR's writes when the declared kind is the vector's; else it aborts with 6 after the
path check and before the interrupt check. -/
def Obligations.SetFnInstallsMatchingKind : Prop :=
  ∀ (p : Path) (k : HandlerKind) (v : Vec) (a : Word) (s : State), s.aborted = false → s.tableCanonical →
    (checkPath p v = none → kindOf v = some k → s.ifIn = false →
      ∃ t, exec (.setFn p k v a) s = .next t ∧
        t.ent v = a.extractLsb' 16 16 ++ 0x8E00#16 ++ s.csIn ++ a.extractLsb' 0 16 ∧ t.hvBit v = true ∧
        t.aborted = false) ∧
    (∀ c, checkPath p v = some c → exec (.setFn p k v a) s = .next (s.abort c)) ∧
    (checkPath p v = none → kindOf v ≠ some k → exec (.setFn p k v a) s = .next (s.abort .kindMismatch)) ∧
    (checkPath p v = none → kindOf v = some k → s.ifIn = true →
      exec (.setFn p k v a) s = .next (s.abort .liveMutation))

/-- R143, the store: a word that keeps bits 11:9 at 1 and bits 12 and 7:0 at 0 is stored verbatim, LOW, SEL, MID and HV
kept, if it is absent or the slot has a handler. -/
def Obligations.SetOptStoresLegalWord : Prop :=
  ∀ (p : Path) (v : Vec) (w : Half) (s : State), s.aborted = false → s.tableCanonical → checkPath p v = none →
    s.ifIn = false → w.extractLsb' 9 3 = 7#3 → w.getLsbD 12 = false → w.extractLsb' 0 8 = 0#8 →
    (w.getLsbD 15 = true → s.hvBit v = true) →
    ∃ t, exec (.setOpt p v w) s = .next t ∧ t.opt v = w ∧ entLow (t.ent v) = entLow (s.ent v) ∧
      entSel (t.ent v) = entSel (s.ent v) ∧ entMid (t.ent v) = entMid (s.ent v) ∧ t.hvBit v = s.hvBit v ∧
      t.aborted = false

/-- R143, the refusals: codes 7, 8 and 9 in that order, after the path check and the interrupt check. -/
def Obligations.SetOptRefusesInOrder : Prop :=
  ∀ (p : Path) (v : Vec) (w : Half) (s : State), s.aborted = false →
    (∀ c, checkPath p v = some c → exec (.setOpt p v w) s = .next (s.abort c)) ∧
    (checkPath p v = none → s.ifIn = true → exec (.setOpt p v w) s = .next { s with aborted := true, err := 10 }) ∧
    (checkPath p v = none → s.ifIn = false →
      (w.extractLsb' 9 3 ≠ 7#3 → exec (.setOpt p v w) s = .next { s with aborted := true, err := 7 }) ∧
      (w.extractLsb' 9 3 = 7#3 → (w.getLsbD 12 = true ∨ w.extractLsb' 0 8 ≠ 0#8) →
        exec (.setOpt p v w) s = .next { s with aborted := true, err := 8 }) ∧
      (w.extractLsb' 9 3 = 7#3 → w.getLsbD 12 = false → w.extractLsb' 0 8 = 0#8 → w.getLsbD 15 = true →
        s.hvBit v = false → exec (.setOpt p v w) s = .next { s with aborted := true, err := 9 }))

/-! ### Option accessors (spec/42_option_accessors.md) -/

/-- R150: SETTRAP writes bit 8 of the option word, bit 40 of the entry, and no other bit; or aborts by its checks in
order. -/
def Obligations.SetTrapWritesT : Prop :=
  ∀ (p : Path) (v : Vec) (aux : Half) (s : State), s.aborted = false → s.tableCanonical →
    (aux.toNat < 2 → checkPath p v = none → s.ifIn = false →
      ∃ t, exec (.setTrap p v aux) s = .next t ∧ t.aborted = false ∧ t.hvBit v = s.hvBit v ∧
        ∀ i, (t.ent v).getLsbD i = if i = 40 then aux.getLsbD 0 else (s.ent v).getLsbD i) ∧
    (2 ≤ aux.toNat → exec (.setTrap p v aux) s = .next (s.abort .illegalCommand)) ∧
    (∀ c, aux.toNat < 2 → checkPath p v = some c → exec (.setTrap p v aux) s = .next (s.abort c)) ∧
    (aux.toNat < 2 → checkPath p v = none → s.ifIn = true →
      exec (.setTrap p v aux) s = .next (s.abort .liveMutation))

/-- R151: SETDPL writes bits 14:13 of the option word, bits 46:45 of the entry, and no other bit; or aborts by its
checks in order, with code 1 for a DPL above 3. -/
def Obligations.SetDplWritesDpl : Prop :=
  ∀ (p : Path) (v : Vec) (aux : Half) (s : State), s.aborted = false → s.tableCanonical →
    (aux.toNat < 4 → checkPath p v = none → s.ifIn = false →
      ∃ t, exec (.setDpl p v aux) s = .next t ∧ t.aborted = false ∧ t.hvBit v = s.hvBit v ∧
        ∀ i, (t.ent v).getLsbD i =
          if i = 45 then aux.getLsbD 0 else if i = 46 then aux.getLsbD 1 else (s.ent v).getLsbD i) ∧
    (4 ≤ aux.toNat → exec (.setDpl p v aux) s = .next (s.abort .illegalCommand)) ∧
    (∀ c, aux.toNat < 4 → checkPath p v = some c → exec (.setDpl p v aux) s = .next (s.abort c)) ∧
    (aux.toNat < 4 → checkPath p v = none → s.ifIn = true →
      exec (.setDpl p v aux) s = .next (s.abort .liveMutation))

/-- R152: SETPRES writes bit 15 of the option word, bit 47 of the entry, and no other bit, HV kept; setting it needs
HV; or it aborts by its checks in order. -/
def Obligations.SetPresWritesP : Prop :=
  ∀ (p : Path) (v : Vec) (aux : Half) (s : State), s.aborted = false → s.tableCanonical →
    (aux.toNat < 2 → checkPath p v = none → s.ifIn = false → (aux.toNat = 1 → s.hvBit v = true) →
      ∃ t, exec (.setPres p v aux) s = .next t ∧ t.aborted = false ∧ t.hvBit v = s.hvBit v ∧
        ∀ i, (t.ent v).getLsbD i = if i = 47 then aux.getLsbD 0 else (s.ent v).getLsbD i) ∧
    (2 ≤ aux.toNat → exec (.setPres p v aux) s = .next (s.abort .illegalCommand)) ∧
    (∀ c, aux.toNat < 2 → checkPath p v = some c → exec (.setPres p v aux) s = .next (s.abort c)) ∧
    (aux.toNat < 2 → checkPath p v = none → s.ifIn = true →
      exec (.setPres p v aux) s = .next (s.abort .liveMutation)) ∧
    (aux.toNat = 1 → checkPath p v = none → s.ifIn = false → s.hvBit v = false →
      exec (.setPres p v aux) s = .next (s.abort .presentWithoutHandler))

/-- R153 to R156, R160, R161: each GET writes RDATA with its field of the entry, zero-extended, whatever `if_in` is, or
aborts by its path check. -/
def Obligations.GetCommandsReadFields : Prop :=
  ∀ (p : Path) (v : Vec) (s : State), s.aborted = false →
    (checkPath p v = none →
      exec (.getEnt p v) s = .next { s with rdata := s.ent v } ∧
      exec (.getAddr p v) s =
        .next { s with rdata := 0#32 ++ (s.ent v).extractLsb' 48 16 ++ (s.ent v).extractLsb' 0 16 } ∧
      exec (.getOpt p v) s = .next { s with rdata := 0#48 ++ (s.ent v).extractLsb' 32 16 } ∧
      exec (.getTrap p v) s = .next { s with rdata := if (s.ent v).getLsbD 40 then 1 else 0 } ∧
      exec (.getDpl p v) s = .next { s with rdata := 0#62 ++ (s.ent v).extractLsb' 45 2 } ∧
      exec (.getPres p v) s = .next { s with rdata := if (s.ent v).getLsbD 47 then 1 else 0 }) ∧
    (∀ c, checkPath p v = some c →
      exec (.getEnt p v) s = .next (s.abort c) ∧ exec (.getAddr p v) s = .next (s.abort c) ∧
      exec (.getOpt p v) s = .next (s.abort c) ∧ exec (.getTrap p v) s = .next (s.abort c) ∧
      exec (.getDpl p v) s = .next (s.abort c) ∧ exec (.getPres p v) s = .next (s.abort c))

/-- The trap flag, DPL and present bit after a list of field setters, from the values before it. -/
def settingsAfter : List Instr → Bool × BitVec 2 × Bool → Bool × BitVec 2 × Bool
  | [], x => x
  | .setTrap _ _ aux :: is, (_, d, b) => settingsAfter is (aux.getLsbD 0, d, b)
  | .setDpl _ _ aux :: is, (t, _, b) => settingsAfter is (t, aux.extractLsb' 0 2, b)
  | .setPres _ _ aux :: is, (t, d, _) => settingsAfter is (t, d, aux.getLsbD 0)
  | _ :: is, x => settingsAfter is x

/-- Any sequence of SETTRAP, SETDPL and SETPRES on one slot that does not abort leaves the last value of each, the
getters read them back, and bits 11:9 stay at 1 (42_option_accessors.md, round-trip law). -/
def Obligations.OptionSettingsRoundTrip : Prop :=
  ∀ (is : List Instr) (p : Path) (v : Vec) (s t : State), s.tableCanonical → optLegal (s.opt v) = true →
    (∀ i ∈ is, i.op ∈ [Op.setTrap, Op.setDpl, Op.setPres] ∧ ∃ q, i.slot? = some (q, v)) →
    execAll is s = .next t → t.aborted = false → checkPath p v = none →
    (∃ u, exec (.getTrap p v) t = .next u ∧
      u.rdata = if (settingsAfter is (optTrap (s.opt v), optDpl (s.opt v), optPresent (s.opt v))).1 then 1 else 0) ∧
    (∃ u, exec (.getDpl p v) t = .next u ∧
      u.rdata =
        (settingsAfter is (optTrap (s.opt v), optDpl (s.opt v), optPresent (s.opt v))).2.1.setWidth 64) ∧
    (∃ u, exec (.getPres p v) t = .next u ∧
      u.rdata =
        if (settingsAfter is (optTrap (s.opt v), optDpl (s.opt v), optPresent (s.opt v))).2.2 then 1 else 0) ∧
    (t.opt v).extractLsb' 9 3 = 7#3

/-- After SETADDR or SETFN of A, commands that do not mutate the slot, and GETADDR, RDATA is A (43_table_access.md,
GETADDR). -/
def Obligations.InstalledAddressReadsBack : Prop :=
  ∀ (i : Instr) (p q : Path) (v : Vec) (a : Word) (is : List Instr) (s s' t u : State), s.tableCanonical →
    (i = .setAddr p v a ∨ ∃ k, i = .setFn p k v a) → exec i s = .next s' → execAll is s' = .next t →
    (∀ i ∈ is, i.op.commandClass = .mutating → ∀ r, i.slot? ≠ some (r, v)) →
    exec (.getAddr q v) t = .next u → u.aborted = false → u.rdata = a.setWidth 64

/-! ### IDTR load control (spec/44_idtr_load.md) -/

/-- R170: LIDT loads any limit and base while unpublished, at privilege 0 with interrupts off; else it aborts with
11, 12 or 13 in that order. -/
def Obligations.LidtLoadsIdtr : Prop :=
  ∀ (limit : Half) (base : Word) (s : State), s.aborted = false →
    (s.cplIn = 0 → s.published = false → s.ifIn = false →
      exec (.lidt limit base) s = .next { s with idtr := { limit := limit, base := base } }) ∧
    (s.cplIn ≠ 0 → exec (.lidt limit base) s = .next { s with aborted := true, err := 11 }) ∧
    (s.cplIn = 0 → s.published = true → exec (.lidt limit base) s = .next { s with aborted := true, err := 12 }) ∧
    (s.cplIn = 0 → s.published = false → s.ifIn = true →
      exec (.lidt limit base) s = .next { s with aborted := true, err := 13 })

/-- R171: PUBLISH loads `{0x07FF, IDT_BASE}` and sets PUBLISHED, once, at privilege 0 with interrupts off; else it
aborts with 11, 12 or 13 in that order. -/
def Obligations.PublishLoadsTable : Prop :=
  ∀ s : State, s.aborted = false →
    (s.cplIn = 0 → s.published = false → s.ifIn = false →
      exec .publish s =
        .next { s with idtr := { limit := 0x07FF, base := Config.idtBase }, published := true }) ∧
    (s.cplIn ≠ 0 → exec .publish s = .next { s with aborted := true, err := 11 }) ∧
    (s.cplIn = 0 → s.published = true → exec .publish s = .next { s with aborted := true, err := 12 }) ∧
    (s.cplIn = 0 → s.published = false → s.ifIn = true →
      exec .publish s = .next { s with aborted := true, err := 13 })

/-- R173: PUBLISH reads only the constants and its three check inputs: two states that agree on those, whatever
their tables, publish alike. -/
def Obligations.PublishReadsNoSlot : Prop :=
  ∀ s s' t t' : State, s.aborted = false → s'.aborted = false → s.cplIn = s'.cplIn → s.published = s'.published →
    s.ifIn = s'.ifIn → exec .publish s = .next t → exec .publish s' = .next t' →
    t.aborted = t'.aborted ∧ t.published = t'.published ∧ (t.aborted = true → t.err = t'.err) ∧
      (t.aborted = false → t.idtr = t'.idtr)

/-! ### Frames -/

/-- The frame of the seven mutating commands: nothing but their slot, its HV bit and an abort changes. The stored
bytes are the 8 bytes at `slotIndex v` (20_memory.md, access widths; 40_command_execution.md, loads and stores). -/
def Obligations.MutatingCommandFrame : Prop :=
  ∀ (i : Instr) (p : Path) (v : Vec) (s t : State), i.op.commandClass = .mutating → i.slot? = some (p, v) →
    s.tableCanonical → exec i s = .next t →
    SameTableOutside s t v ∧ SameHvOutside s t v ∧ t.rdata = s.rdata ∧ SameLoad s t ∧ SamePorts s t ∧
      (t.aborted = false → SameAbort s t) ∧ (t.aborted = true → SameTable s t ∧ t.hv = s.hv) ∧
      (i.op ∈ [Op.setOpt, Op.setTrap, Op.setDpl, Op.setPres] →
        t.hv = s.hv ∧ entLow (t.ent v) = entLow (s.ent v) ∧ entSel (t.ent v) = entSel (s.ent v) ∧
          entMid (t.ent v) = entMid (s.ent v))

/-- The frame of the six reading commands: nothing but RDATA and an abort changes, and an abort leaves RDATA
(10_state.md, RDATA). -/
def Obligations.ReadingCommandFrame : Prop :=
  ∀ (i : Instr) (s t : State), i.op.commandClass = .reading → exec i s = .next t →
    SameTable s t ∧ t.hv = s.hv ∧ SameLoad s t ∧ SamePorts s t ∧ (t.aborted = false → SameAbort s t) ∧
      (t.aborted = true → t.rdata = s.rdata)

/-- The frame of LIDT and PUBLISH: nothing but IDTR, PUBLISHED and an abort changes, and LIDT leaves PUBLISHED
(44_idtr_load.md). -/
def Obligations.IdtrCommandFrame : Prop :=
  ∀ (i : Instr) (s t : State), i.op.commandClass = .idtrLoad → exec i s = .next t →
    SameTable s t ∧ t.hv = s.hv ∧ t.rdata = s.rdata ∧ SamePorts s t ∧ (t.aborted = false → SameAbort s t) ∧
      (t.aborted = true → SameLoad s t) ∧ (i ≠ .publish → t.published = s.published)

/-- Every command but PUBLISH is idempotent (20_memory.md, access widths, atomicity, side effects). -/
def Obligations.CommandsButPublishAreIdempotent : Prop :=
  ∀ (i : Instr) (s t : State), i ≠ .publish → s.tableCanonical → exec i s = .next t → exec i t = .next t

/-! ### Memory (spec/20_memory.md) -/

/-- A slot seen through the system address space: `MemRead(IDT_BASE + 8v, 8)` is `ENT(v)`, `MemWrite` there is the
slot's store, and byte k of the slot is bits 8k+7:8k (00_scope.md, pseudocode primitives; 20_memory.md, window mapping
and byte order). -/
def Obligations.SlotsInSystemAddressSpace : Prop :=
  ∀ (s : State) (v : Vec),
    s.memRead (Config.idtBase + BitVec.ofNat 32 (8 * v.toNat)) 8 = some (s.ent v).toNat ∧
    (∀ e : DWord, s.memWrite (Config.idtBase + BitVec.ofNat 32 (8 * v.toNat)) 8 e.toNat = some (s.setEnt v e)) ∧
    (∀ k : Nat, k < 8 → s.tblByte (8 * v.toNat + k) = (s.ent v).extractLsb' (8 * k) 8)

/-- R56: another agent's store into `[IDT_BASE, IDT_BASE + 2047]` is refused; only the block, by a command of the host
or by its reset, writes the table memory. -/
def Obligations.ForeignStoreIntoWindowRefused : Prop :=
  (∀ (s : State) (addr : Word) (b : Byte) (rest : List Input), s.inputs = .foreignStore addr b :: rest →
    Config.idtBase.toNat ≤ addr.toNat → addr.toNat ≤ Config.idtBase.toNat + 2047 → step s = .refused .foreignStore) ∧
  (∀ s t : State, step s = .next t → t.tbl ≠ s.tbl →
    s.inputs.head? = some .reset ∨ ∃ w, s.inputs.head? = some (.command w))

/-! ### Status and reset -/

/-- R30: the bits of STATUS, and its reset value. -/
def Obligations.StatusBits : Prop :=
  (∀ s : State, s.status.getLsbD 15 = s.aborted ∧ s.status.getLsbD 14 = s.published ∧
    s.status.extractLsb' 4 10 = 0#10 ∧ s.status.extractLsb' 0 4 = s.err) ∧
  State.reset.status = 0x0000

/-- R240: a reset sets every element of the block's state to its reset value, IDTR to `IDTR_RESET` under no law (one
value of the free constant for each reset, log 2); it is the only event that clears ABORTED or PUBLISHED. `IDT_BASE` is
a constant. -/
def Obligations.ResetSetsEveryElement : Prop :=
  (∀ (s : State) (rest : List Input), s.inputs = .reset :: rest →
    ∃ t, step s = .next t ∧ (∀ v : Vec, t.ent v = 0x00000E0000000000) ∧ (∀ v : Vec, t.hvBit v = false) ∧
      t.published = false ∧ t.aborted = false ∧ t.err = 0 ∧ t.rdata = 0 ∧
      ∃ n, t.idtr = { limit := Config.idtrResetLimit n, base := Config.idtrResetBase n }) ∧
  (∀ v : Vec, State.reset.ent v = 0x00000E0000000000 ∧ State.reset.hvBit v = false) ∧
  State.reset.published = false ∧ State.reset.aborted = false ∧ State.reset.err = 0 ∧ State.reset.rdata = 0 ∧
  (∃ n, State.reset.idtr = { limit := Config.idtrResetLimit n, base := Config.idtrResetBase n }) ∧
  (∀ s t : State, step s = .next t →
    (s.aborted = true ∧ t.aborted = false) ∨ (s.published = true ∧ t.published = false) →
    s.inputs.head? = some .reset)

/-! ### Invariants and whole-machine rules -/

/-- Every step keeps the table memory in its canonical form. -/
def Obligations.StepKeepsTableCanonical : Prop :=
  ∀ s t : State, s.tableCanonical → step s = .next t → t.tableCanonical

/-- Every step keeps the hardwired columns of every option word: bits 11:9 at 1, bits 12 and 7:0 at 0
(10_state.md, option word). -/
def Obligations.StepKeepsHardwiredOptionBits : Prop :=
  ∀ s t : State, s.tableCanonical → s.optionsLegal → step s = .next t → t.optionsLegal

/-- Every step keeps: canonical table, legal option words, present implies installed, reserved vectors absent,
published implies IDTR names the table, ERR in range (10_state.md; 40_command_execution.md; 41_entry_encoding.md;
44_idtr_load.md; 60_exceptions.md, the invariants they derive). -/
def Obligations.StepKeepsBlockInvariant : Prop :=
  ∀ s t : State, s.Inv → step s = .next t → t.Inv

/-- The invariant holds at reset. -/
def Obligations.ResetMeetsBlockInvariant : Prop := State.reset.Inv

/-- Along every run from a launch state, whatever the outside presents, no reserved vector is ever present
(40_command_execution.md, invariant: no reserved vector is ever present). -/
def Obligations.ReservedVectorsAbsentOnEveryRun : Prop :=
  ∀ (cs : Half) (inputs : List Input) (k : Nat) (t : State),
    Host.Core.run core k (launchState cs inputs) = .next t →
    ∀ v : Vec, v.toNat ∈ [9, 15, 20, 21, 22, 23, 24, 25, 26, 27, 28, 29, 31] → (t.ent v).getLsbD 47 = false

/-- ABORTED and PUBLISHED go from 1 to 0 only by reset; ABORTED goes from 0 to 1 only at a presented command word, and ERR
changes only with it or by reset; PUBLISHED goes from 0 to 1 only by PUBLISH; IDTR is written only by LIDT, PUBLISH and
reset, and not by a command while PUBLISHED = 1; a step that serves neither a command nor a reset leaves the whole block
(10_state.md, control and status registers; 40_command_execution.md, abort; 44_idtr_load.md, published at most once). -/
def Obligations.WhoWritesStatusAndIdtr : Prop :=
  ∀ s t : State, step s = .next t →
    (s.aborted = true → t.aborted = false → s.inputs.head? = some .reset) ∧
    (s.published = true → t.published = false → s.inputs.head? = some .reset) ∧
    (s.aborted = false → t.aborted = true → ∃ w, s.inputs.head? = some (.command w)) ∧
    (t.err ≠ s.err →
      s.inputs.head? = some .reset ∨
        (s.aborted = false ∧ t.aborted = true ∧ ∃ w, s.inputs.head? = some (.command w))) ∧
    (s.inputs.head? ≠ some .reset → (∀ w, s.inputs.head? ≠ some (.command w)) →
      t.tbl = s.tbl ∧ t.hv = s.hv ∧ SameLoad s t ∧ SameAbort s t ∧ t.rdata = s.rdata) ∧
    (s.published = false → t.published = true →
      ∃ w, s.inputs.head? = some (.command w) ∧ decode w = .ok .publish) ∧
    (t.idtr ≠ s.idtr →
      s.inputs.head? = some .reset ∨
        (s.published = false ∧ ∃ w i, s.inputs.head? = some (.command w) ∧ decode w = .ok i ∧
          i.op.commandClass = .idtrLoad))

/-- The address words and the selector of a slot change, and its HV bit changes, only by CLR, SETADDR or SETFN of that
slot or by reset (10_state.md, address words and selector, HV; 41_entry_encoding.md, every present slot was
installed). -/
def Obligations.WhoWritesAddressesAndHandlerBits : Prop :=
  ∀ (s t : State) (v : Vec), s.tableCanonical → step s = .next t →
    (entLow (t.ent v) ≠ entLow (s.ent v) ∨ entSel (t.ent v) ≠ entSel (s.ent v) ∨
      entMid (t.ent v) ≠ entMid (s.ent v) ∨ t.hvBit v ≠ s.hvBit v) →
    s.inputs.head? = some .reset ∨
      ∃ w i p, s.inputs.head? = some (.command w) ∧ decode w = .ok i ∧ i.slot? = some (p, v) ∧
        i.op ∈ [Op.clr, Op.setAddr, Op.setFn]

/-! ### The gate reader (spec/43_table_access.md) -/

/-- R163: the three results of a gate read by the limit test and the modular address computations; a published table is
served whole; a gate read changes nothing but the port's output. -/
def Obligations.GateReadResult : Prop :=
  ∀ (s : State) (g : Vec),
    (s.idtr.limit.toNat < 8 * g.toNat + 7 → gateRead s g = .outOfLimit) ∧
    (8 * g.toNat + 7 ≤ s.idtr.limit.toNat → ∀ a d : Nat, a = (s.idtr.base.toNat + 8 * g.toNat) % 2 ^ 32 →
      d = (a + 2 ^ 32 - Config.idtBase.toNat) % 2 ^ 32 →
      (∀ v : Vec, d = 8 * v.toNat → gateRead s g = .entry (s.ent v)) ∧
      ((∀ v : Vec, d ≠ 8 * v.toNat) → gateRead s g = .notServed)) ∧
    (s.idtr = { limit := 0x07FF, base := Config.idtBase } → gateRead s g = .entry (s.ent g)) ∧
    (∀ rest, s.inputs = .gateRead g :: rest →
      step s = .next { s with inputs := rest, gateData := some (gateRead s g) })

/-- The gate of a freshly installed slot decodes to the address, `cs_in`, an interrupt gate, DPL 0, present
(43_table_access.md, gate decode). -/
def Obligations.InstalledGateDecodes : Prop :=
  ∀ (p : Path) (v : Vec) (a : Word) (s : State), s.aborted = false → s.tableCanonical → checkPath p v = none →
    s.ifIn = false →
    ∃ t, exec (.setAddr p v a) s = .next t ∧
      decodeGate (t.ent v) = { offset := a, selector := s.csIn, trapGate := false, dpl := 0, present := true }

/-! ### Dispatch, composed with the block (spec/60_exceptions.md; log 15) -/

/-- R212: a dispatch through an absent gate, beyond the limit, outside the table or through an IDTR that PUBLISH has not
loaded is a fault of the run, never a transfer. -/
def Obligations.UnusableGateFaults : Prop :=
  ∀ (t : TrapRequest) (s : State), ¬ (t.cause = .device ∧ s.ifIn = false) →
    (s.published = false ∨ gateRead s t.vec = .outOfLimit ∨ gateRead s t.vec = .notServed ∨
      (∃ e, gateRead s t.vec = .entry e ∧ e.getLsbD 47 = false)) →
    ∃ f, takeTrap t s = .fault f

/-- R203's column "saved IP points to": the instruction after it for vectors 2, 3, 4 and 32 to 255, the faulting or
offending one for an exception of 0, 5 to 7, 10 to 14, 16, 17 and 19, one of the two for 1; 8, 18 and 30 have no fixed
value (log 16). -/
def SavedIpOf (t : TrapRequest) (ip : Word) : Prop :=
  (t.vec.toNat ∈ [2, 3, 4] ∨ 32 ≤ t.vec.toNat → ip = t.nextIp) ∧
  (t.vec.toNat ∈ [0, 5, 6, 7, 10, 11, 12, 13, 14, 16, 17, 19] → t.cause ≠ .software → ip = t.faultIp) ∧
  (t.vec.toNat = 1 → ip = t.faultIp ∨ ip = t.nextIp)

/-- A dispatch through a present gate of a published table transfers control to the gate's offset with CS its selector,
keeps interrupts on only through a trap gate, and, from ring 0, pushes IP, CS and flags, with the error code lowest for the
kinds that carry one (60_exceptions.md, where control goes, the exception frame, interrupt gate versus trap gate; the frame
of a transfer from another ring is not claimed, log 23); the saved IP is the taxonomy's. The composition
with the CPU is the model's, log 15; the saved IP and the upper half of the CS slot are those of logs 16 and 17; the
handler runs in ring 0, log 18. That an exception inside an active handler enters its own vector's handler is the model's
choice, log 29, and so is that a trap of any pair of cause and vector is taken, log 30. A device interrupt while `if_in` is 0
is not taken (60_exceptions.md, interrupt gate versus trap gate, nesting; that it is dropped is the model's, log 19). -/
def Obligations.DispatchTransfersThroughGate : Prop :=
  (∀ (t : TrapRequest) (s : State) (e : DWord), s.published = true → (t.cause = .device → s.ifIn = true) →
    gateRead s t.vec = .entry e → e.getLsbD 47 = true →
    (t.cause = .software → s.cplIn.toNat ≤ (e.extractLsb' 45 2).toNat) →
    t.handler = kindOf t.vec → kindOf t.vec ≠ none →
    ∃ u f, takeTrap t s = .next u ∧ u.cpuTarget = some (e.extractLsb' 48 16 ++ e.extractLsb' 0 16) ∧
      u.csIn = e.extractLsb' 16 16 ∧ u.cplIn = 0 ∧ (u.ifIn = true ↔ s.ifIn = true ∧ e.getLsbD 40 = true) ∧
      u.active = f :: s.active ∧ SavedIpOf t f.ip ∧ f.ip = savedIp t s.draws ∧
      (s.cplIn = 0 → kindOf t.vec = some .plain ∨ kindOf t.vec = some .diverging →
        f.words = [f.ip, Config.freeCsSlotHigh s.draws ++ s.csIn, t.flags]) ∧
      (s.cplIn = 0 → kindOf t.vec = some .withErrorCode ∨ kindOf t.vec = some .divergingWithErrorCode →
        f.words = [if t.vec = 8 ∨ t.vec = 17 then 0 else t.errorCode, f.ip,
          Config.freeCsSlotHigh s.draws ++ s.csIn, t.flags]) ∧
      u.tbl = s.tbl ∧ u.hv = s.hv ∧ SameLoad s u ∧ SameAbort s u ∧ u.rdata = s.rdata) ∧
  (∀ (t : TrapRequest) (s : State), t.cause = .device → s.ifIn = false → takeTrap t s = .next s)

/-- A software interrupt from a ring above the gate's DPL is not let through; an exception, the NMI and a device
interrupt are not subject to the DPL (60_exceptions.md, privilege levels and the DPL; the fault is the model's choice,
log 21, and so is naming it before the handler's convention, log 27). -/
def Obligations.DplGuardsSoftwareInterrupts : Prop :=
  ∀ (t : TrapRequest) (s : State) (e : DWord), s.published = true → gateRead s t.vec = .entry e →
    e.getLsbD 47 = true →
    (t.cause = .software → (e.extractLsb' 45 2).toNat < s.cplIn.toNat →
      takeTrap t s = .fault .softwareInterruptDenied) ∧
    (t.cause ≠ .software → takeTrap t s ≠ .fault .softwareInterruptDenied) ∧
    (s.cplIn.toNat ≤ (e.extractLsb' 45 2).toNat → takeTrap t s ≠ .fault .softwareInterruptDenied)

/-- The handler of a vector other than 8 and 18 resumes the interrupted context, at the saved IP of the taxonomy and with
the code selector, privilege level, interrupt flag and flags word that the trap saved, from every state whose active handlers
are those the trap left, whatever stood between; the
return of one of those two is a fault (60_exceptions.md, return and vector taxonomy; log 22). -/
def Obligations.ReturnResumesInterruptedContext : Prop :=
  ∀ (t : TrapRequest) (s u u' : State), takeTrap t s = .next u → u.active ≠ s.active → u'.active = u.active →
    (t.vec ≠ 8 → t.vec ≠ 18 →
      ∃ w ip, returnFromTrap u' = .next w ∧ w.csIn = s.csIn ∧ w.cplIn = s.cplIn ∧ w.ifIn = s.ifIn ∧
        w.active = s.active ∧ w.cpuTarget = some ip ∧ w.cpuFlags = some t.flags ∧ SavedIpOf t ip ∧ ip = savedIp t s.draws) ∧
    (t.vec = 8 ∨ t.vec = 18 → returnFromTrap u' = .fault .returnFromDiverging)

/-- In every published state that meets the block's invariant, a trap through a reserved vector finds its gate absent
(60_exceptions.md, vector taxonomy, with 40_command_execution.md, no reserved vector is ever present; stopping is
60_exceptions.md, dispatch through an unusable gate; naming the absent gate before the DPL and the handler's convention is
the model's choice, log 27). -/
def Obligations.ReservedVectorsNeverDispatched : Prop :=
  ∀ (t : TrapRequest) (s : State), s.Inv → classOf t.vec = .reserved → s.published = true →
    (t.cause = .device → s.ifIn = true) → takeTrap t s = .fault .gateAbsent

/-! ### The end of a run (spec/70_reset_and_hazards.md) -/

/-- R251: every run of commands and gate reads from a launch state ends, right after the last command's step and not
before; its outcome is successful exactly with ABORTED = 0, and the gate reads among the commands do not touch it; a state
with a command still waiting is no end. -/
def Obligations.RunEndsAfterLastCommand : Prop :=
  (∀ (cs : Half) (events : List RunEvent),
    ∃ t, runToEnd (launchState cs (runInputs events)) = .next t ∧ t.ended = true ∧
      (t.completed ↔ t.aborted = false) ∧ (t.faulted ↔ t.aborted = true) ∧
      (∀ (j : Nat) (u : State), j < stepsToEnd (runInputs events) →
        Host.Core.run core j (launchState cs (runInputs events)) = .next u → u.ended = false) ∧
      ∃ t', runToEnd (launchState cs (runInputs (events.filter RunEvent.isCommand))) = .next t' ∧
        t'.outcome = t.outcome) ∧
  (∀ (s : State) (w : DWord), .command w ∈ s.inputs → s.ended = false ∧ ¬ s.completed ∧ ¬ s.faulted)

/-! ### The other inputs of a step -/

/-- A step with a trap, a return or new pins presented is `takeTrap`, `returnFromTrap` or the new pins, from the state with
the input taken off (00_scope.md, step model; 10_state.md, the sampled inputs; 70_reset_and_hazards.md, end of a run; that
these are steps of a list of inputs is the model's choice, logs 4, 5 and 15). A store outside the window changes nothing
(log 10), and with nothing presented a step changes nothing (log 6). -/
def Obligations.StepServesTrapsReturnsAndPins : Prop :=
  (∀ (s : State) (t : TrapRequest) (rest : List Input), s.inputs = .trap t :: rest →
    step s = takeTrap t { s with inputs := rest }) ∧
  (∀ (s : State) (rest : List Input), s.inputs = .trapReturn :: rest →
    step s = returnFromTrap { s with inputs := rest }) ∧
  (∀ (s : State) (cs : Half) (cpl : BitVec 2) (f : Bool) (rest : List Input), s.inputs = .pins cs cpl f :: rest →
    step s = .next { s with inputs := rest, csIn := cs, cplIn := cpl, ifIn := f }) ∧
  (∀ (s : State) (addr : Word) (b : Byte) (rest : List Input), s.inputs = .foreignStore addr b :: rest →
    addr.toNat < Config.idtBase.toNat ∨ Config.idtBase.toNat + 2047 < addr.toNat →
    step s = .next { s with inputs := rest }) ∧
  (∀ s : State, s.inputs = [] → step s = .next s)
end

