-- ==== Sys2Proof/Laws/Config.lean ====
section
/-! SUPPORT. The law of `IDT_BASE` (spec/20_memory.md R52): every admitted value and no other. -/

namespace Sys2Proof

theorem idtBase_toNat : Config.idtBase.toNat = 16 * Config.idtParagraph.val := by
  have h := Config.idtParagraph.isLt
  simp only [Config.idtBase, BitVec.toNat_ofNat]
  omega

/-- `IDT_BASE ≤ 0xFFFF_F800` (R52). -/
theorem idtBase_le : Config.idtBase.toNat ≤ 0xFFFFF800 := by
  have h := Config.idtParagraph.isLt
  rw [idtBase_toNat]
  omega

/-- `IDT_BASE[3:0] = 0` (R52). -/
theorem idtBase_aligned : Config.idtBase.toNat % 16 = 0 := by
  rw [idtBase_toNat]
  omega

end Sys2Proof
end

