-- ==== Sys2Proof/Laws/Encoding.lean ====
section
/-! SUPPORT. The laws of the command word's fields and codes (spec/30_encoding.md R81 to R83, R88). -/

namespace Sys2Proof

@[simp] theorem opOfCode_code (o : Op) : opOfCode o.code = some o := by
  cases o <;> rfl

theorem code_of_opOfCode {c : BitVec 4} {o : Op} (h : opOfCode c = some o) : o.code = c := by
  have h2 := List.find?_some h
  simpa using h2

@[simp] theorem pathOfBit_bit (p : Path) : pathOfBit p.bit = p := by
  cases p <;> rfl

@[simp] theorem bit_pathOfBit (n : BitVec 1) : (pathOfBit n).bit = n := by
  revert n; decide

@[simp] theorem kindOfCode_code (k : HandlerKind) : kindOfCode k.code = k := by
  cases k <;> rfl

@[simp] theorem code_kindOfCode (k : BitVec 2) : (kindOfCode k).code = k := by
  revert k; decide

/-- One bit of the command word, by fields (R81). -/
theorem Fields.word_bit (f : Fields) (i : Nat) :
    f.word.getLsbD i =
      if i < 32 then f.data.getLsbD i
      else if i < 48 then f.aux.getLsbD (i - 32)
      else if i < 56 then f.vec.getLsbD (i - 48)
      else if i < 57 then f.r.getLsbD (i - 56)
      else if i < 59 then f.k.getLsbD (i - 57)
      else if i < 60 then f.n.getLsbD (i - 59)
      else f.op.getLsbD (i - 60) := by
  unfold Fields.word
  rw [BitVec.getLsbD_append, BitVec.getLsbD_append, BitVec.getLsbD_append, BitVec.getLsbD_append,
    BitVec.getLsbD_append, BitVec.getLsbD_append]
  by_cases h1 : i < 32
  · rw [if_pos h1, if_pos h1]
  rw [if_neg h1, if_neg h1]
  by_cases h2 : i < 48
  · rw [if_pos (show i - 32 < 16 by omega), if_pos h2]
  rw [if_neg (show ¬ i - 32 < 16 by omega), if_neg h2]
  by_cases h3 : i < 56
  · rw [if_pos (show i - 32 - 16 < 8 by omega), if_pos h3, show i - 32 - 16 = i - 48 by omega]
  rw [if_neg (show ¬ i - 32 - 16 < 8 by omega), if_neg h3]
  by_cases h4 : i < 57
  · rw [if_pos (show i - 32 - 16 - 8 < 1 by omega), if_pos h4, show i - 32 - 16 - 8 = i - 56 by omega]
  rw [if_neg (show ¬ i - 32 - 16 - 8 < 1 by omega), if_neg h4]
  by_cases h5 : i < 59
  · rw [if_pos (show i - 32 - 16 - 8 - 1 < 2 by omega), if_pos h5, show i - 32 - 16 - 8 - 1 = i - 57 by omega]
  rw [if_neg (show ¬ i - 32 - 16 - 8 - 1 < 2 by omega), if_neg h5]
  by_cases h6 : i < 60
  · rw [if_pos (show i - 32 - 16 - 8 - 1 - 2 < 1 by omega), if_pos h6,
      show i - 32 - 16 - 8 - 1 - 2 = i - 59 by omega]
  rw [if_neg (show ¬ i - 32 - 16 - 8 - 1 - 2 < 1 by omega), if_neg h6,
    show i - 32 - 16 - 8 - 1 - 2 - 1 = i - 60 by omega]

/-- The fields of a word built from fields (R81, R82). -/
@[simp] theorem fieldsOf_word (f : Fields) : fieldsOf f.word = f := by
  obtain ⟨op, n, k, r, vec, aux, data⟩ := f
  simp only [fieldsOf, Fields.mk.injEq]
  refine ⟨?_, ?_, ?_, ?_, ?_, ?_, ?_⟩ <;> (apply BitVec.eq_of_getLsbD_eq; intro i hi)
  · simp only [BitVec.getLsbD_extractLsb', Fields.word_bit, hi, decide_true, Bool.true_and]
    rw [if_neg (by omega), if_neg (by omega), if_neg (by omega), if_neg (by omega), if_neg (by omega),
      if_neg (by omega), Nat.add_sub_cancel_left]
  · simp only [BitVec.getLsbD_extractLsb', Fields.word_bit, hi, decide_true, Bool.true_and]
    rw [if_neg (by omega), if_neg (by omega), if_neg (by omega), if_neg (by omega), if_neg (by omega),
      if_pos (by omega), Nat.add_sub_cancel_left]
  · simp only [BitVec.getLsbD_extractLsb', Fields.word_bit, hi, decide_true, Bool.true_and]
    rw [if_neg (by omega), if_neg (by omega), if_neg (by omega), if_neg (by omega), if_pos (by omega),
      Nat.add_sub_cancel_left]
  · simp only [BitVec.getLsbD_extractLsb', Fields.word_bit, hi, decide_true, Bool.true_and]
    rw [if_neg (by omega), if_neg (by omega), if_neg (by omega), if_pos (by omega), Nat.add_sub_cancel_left]
  · simp only [BitVec.getLsbD_extractLsb', Fields.word_bit, hi, decide_true, Bool.true_and]
    rw [if_neg (by omega), if_neg (by omega), if_pos (by omega), Nat.add_sub_cancel_left]
  · simp only [BitVec.getLsbD_extractLsb', Fields.word_bit, hi, decide_true, Bool.true_and]
    rw [if_neg (by omega), if_pos (by omega), Nat.add_sub_cancel_left]
  · simp only [BitVec.getLsbD_extractLsb', Fields.word_bit, hi, decide_true, Bool.true_and, Nat.zero_add, if_true]

/-- A word is its fields: no bit is dropped (R81). -/
@[simp] theorem word_fieldsOf (w : DWord) : (fieldsOf w).word = w := by
  apply BitVec.eq_of_getLsbD_eq
  intro i hi
  have g : ∀ lo n, lo ≤ i → i < lo + n → (w.extractLsb' lo n).getLsbD (i - lo) = w.getLsbD i := fun lo n h1 h2 => by
    rw [BitVec.getLsbD_extractLsb', show lo + (i - lo) = i by omega]
    simp [show i - lo < n by omega]
  rw [Fields.word_bit]
  simp only [fieldsOf]
  split
  · simpa using g 0 32 (by omega) (by omega)
  · split
    · exact g 32 16 (by omega) (by omega)
    · split
      · exact g 48 8 (by omega) (by omega)
      · split
        · exact g 56 1 (by omega) (by omega)
        · split
          · exact g 57 2 (by omega) (by omega)
          · split
            · exact g 59 1 (by omega) (by omega)
            · exact g 60 4 (by omega) (by omega)

theorem auxBitOnly_iff (aux : Half) : auxBitOnly aux = true ↔ auxIsBit aux = true := by
  have e : aux.toNat >>> 1 = aux.toNat / 2 := Nat.shiftRight_eq_div_pow aux.toNat 1
  have := aux.isLt
  simp only [auxBitOnly, auxIsBit, decide_eq_true_eq]
  rw [← BitVec.toNat_inj, BitVec.extractLsb'_toNat, e, show (0 : BitVec 15).toNat = 0 from rfl]
  omega

theorem auxPairOnly_iff (aux : Half) : auxPairOnly aux = true ↔ auxIsPair aux = true := by
  have e : aux.toNat >>> 2 = aux.toNat / 4 := Nat.shiftRight_eq_div_pow aux.toNat 2
  have := aux.isLt
  simp only [auxPairOnly, auxIsPair, decide_eq_true_eq]
  rw [← BitVec.toNat_inj, BitVec.extractLsb'_toNat, e, show (0 : BitVec 14).toNat = 0 from rfl]
  omega

@[simp] theorem accept_eq_ok (b : Bool) (i j : Instr) : accept b i = .ok j ↔ b = true ∧ i = j := by
  cases b <;> simp [accept]

end Sys2Proof
end

