-- ==== Sys2Proof/Laws/Entry.lean ====
section
/-! SUPPORT. The laws of entries and option words (spec/30_encoding.md R84 to R86, R89): each field of a packed
entry, what each setter changes and keeps, and that the setters keep the fixed bits. -/

namespace Sys2Proof.Machine

/-! ### Entries -/

@[simp] theorem entLow_pack (mid opt sel low : Half) : entLow (packEntry mid opt sel low) = low := by
  ext i h
  simp only [entLow, packEntry, BitVec.getElem_extractLsb', BitVec.getLsbD_append]
  simp [h]

@[simp] theorem entSel_pack (mid opt sel low : Half) : entSel (packEntry mid opt sel low) = sel := by
  ext i h
  simp only [entSel, packEntry, BitVec.getElem_extractLsb', BitVec.getLsbD_append]
  have h1 : ¬ 16 + i < 16 := by omega
  simp [h]

@[simp] theorem entOpt_pack (mid opt sel low : Half) : entOpt (packEntry mid opt sel low) = opt := by
  ext i h
  simp only [entOpt, packEntry, BitVec.getElem_extractLsb', BitVec.getLsbD_append]
  have h1 : ¬ 32 + i < 16 := by omega
  have h2 : ¬ 32 + i - 16 < 16 := by omega
  have h3 : 32 + i - 16 - 16 = i := by omega
  simp [h, h1, h2, h3]

@[simp] theorem entMid_pack (mid opt sel low : Half) : entMid (packEntry mid opt sel low) = mid := by
  ext i h
  simp only [entMid, packEntry, BitVec.getElem_extractLsb', BitVec.getLsbD_append]
  have h1 : ¬ 48 + i < 16 := by omega
  have h2 : ¬ 48 + i - 16 < 16 := by omega
  have h3 : ¬ 48 + i - 16 - 16 < 16 := by omega
  have h4 : 48 + i - 16 - 16 - 16 = i := by omega
  simp [h, h1, h2, h3, h4]

theorem entry_ext {e f : DWord} (hm : entMid e = entMid f) (ho : entOpt e = entOpt f) (hs : entSel e = entSel f)
    (hl : entLow e = entLow f) : e = f := by
  have at_ : ∀ {x y : Half} (k : Nat), x = y → x.getLsbD k = y.getLsbD k := fun k h => by rw [h]
  apply BitVec.eq_of_getLsbD_eq
  intro i hi
  by_cases h1 : i < 16
  · simpa [entLow, h1] using at_ i hl
  · by_cases h2 : i < 32
    · have k : i - 16 < 16 := by omega
      have e1 : 16 + (i - 16) = i := by omega
      simpa [entSel, k, e1] using at_ (i - 16) hs
    · by_cases h3 : i < 48
      · have k : i - 32 < 16 := by omega
        have e1 : 32 + (i - 32) = i := by omega
        simpa [entOpt, k, e1] using at_ (i - 32) ho
      · have k : i - 48 < 16 := by omega
        have e1 : 48 + (i - 48) = i := by omega
        simpa [entMid, k, e1] using at_ (i - 48) hm

/-- An entry is its four fields (R84). -/
theorem pack_fields (e : DWord) : packEntry (entMid e) (entOpt e) (entSel e) (entLow e) = e :=
  entry_ext (by simp) (by simp) (by simp) (by simp)

@[simp] theorem entOpt_withOpt (e : DWord) (w : Half) : entOpt (entWithOpt e w) = w := entOpt_pack _ _ _ _

@[simp] theorem entLow_withOpt (e : DWord) (w : Half) : entLow (entWithOpt e w) = entLow e := entLow_pack _ _ _ _

@[simp] theorem entSel_withOpt (e : DWord) (w : Half) : entSel (entWithOpt e w) = entSel e := entSel_pack _ _ _ _

@[simp] theorem entMid_withOpt (e : DWord) (w : Half) : entMid (entWithOpt e w) = entMid e := entMid_pack _ _ _ _

@[simp] theorem entWithOpt_withOpt (e : DWord) (w x : Half) : entWithOpt (entWithOpt e w) x = entWithOpt e x := by
  simp [entWithOpt]

theorem entWithOpt_self (e : DWord) : entWithOpt e (entOpt e) = e := pack_fields e

/-- Replacing the option word replaces bits 47:32 of the entry and no other (R84). -/
theorem entWithOpt_bit (e : DWord) (w : Half) (i : Nat) :
    (entWithOpt e w).getLsbD i = if 32 ≤ i ∧ i < 48 then w.getLsbD (i - 32) else e.getLsbD i := by
  unfold entWithOpt packEntry
  rw [BitVec.getLsbD_append, BitVec.getLsbD_append, BitVec.getLsbD_append]
  unfold entLow entSel entMid
  simp only [BitVec.getLsbD_extractLsb']
  by_cases h1 : i < 16
  · have h2 : ¬ 32 ≤ i := by omega
    simp [h1, h2]
  rw [if_neg h1]
  by_cases h2 : i < 32
  · rw [if_pos (show i - 16 < 16 by omega), if_neg (show ¬ (32 ≤ i ∧ i < 48) by omega),
      show 16 + (i - 16) = i by omega]
    simp [show i - 16 < 16 by omega]
  rw [if_neg (show ¬ i - 16 < 16 by omega)]
  by_cases h3 : i < 48
  · rw [if_pos (show i - 16 - 16 < 16 by omega), if_pos (show 32 ≤ i ∧ i < 48 by omega),
      show i - 16 - 16 = i - 32 by omega]
  rw [if_neg (show ¬ i - 16 - 16 < 16 by omega), if_neg (show ¬ (32 ≤ i ∧ i < 48) by omega)]
  by_cases h4 : i < 64
  · rw [show 48 + (i - 16 - 16 - 16) = i by omega]
    simp [show i - 16 - 16 - 16 < 16 by omega]
  · rw [BitVec.getLsbD_of_ge e i (by omega)]
    simp [show ¬ i - 16 - 16 - 16 < 16 by omega]

/-- One bit of an entry's option word (R84). -/
theorem entOpt_bit (e : DWord) (i : Nat) : (entOpt e).getLsbD i = (decide (i < 16) && e.getLsbD (32 + i)) := by
  simp [entOpt]

/-- The reconstruction gives every address back (R89). -/
@[simp] theorem addrJoin_split (a : Word) : addrJoin (addrMid a) (addrLow a) = a := by
  apply BitVec.eq_of_getLsbD_eq
  intro i hi
  simp only [addrJoin, addrMid, addrLow, BitVec.getLsbD_append, BitVec.getLsbD_extractLsb']
  by_cases h : i < 16
  · simp [h]
  · have h1 : i - 16 < 16 := by omega
    have h2 : 16 + (i - 16) = i := by omega
    simp [h, h1, h2]

/-! ### Gate decode is the entry's fields (R164) -/

theorem decodeGate_eq (e : DWord) :
    decodeGate e =
      { offset := entAddress e, selector := entSel e, trapGate := optTrap (entOpt e), dpl := optDpl (entOpt e),
        present := optPresent (entOpt e) } := by
  have hd : e.extractLsb' 45 2 = optDpl (entOpt e) := by
    ext i h
    have h1 : 13 + i < 16 := by omega
    simp [optDpl, entOpt, h1, ← Nat.add_assoc]
  simp [decodeGate, entAddress, addrJoin, entMid, entLow, entSel, optTrap, optPresent, hd, entOpt]

/-! ### Option words -/

/-- SETTRAP writes bit 8 and no other (R150). -/
theorem optSetTrap_bit (w : Half) (b : Bool) (i : Nat) :
    (optSetTrap w b).getLsbD i = if i = 8 then b else w.getLsbD i := by
  unfold optSetTrap
  rw [BitVec.getLsbD_append, BitVec.getLsbD_append, BitVec.getLsbD_extractLsb', BitVec.getLsbD_extractLsb']
  by_cases h : i < 8
  · have h1 : i ≠ 8 := by omega
    simp [h, h1]
  · by_cases h8 : i = 8
    · simp [h8]
    · have h1 : ¬ i - 8 < 1 := by omega
      have h2 : 9 + (i - 8 - 1) = i := by omega
      by_cases h16 : i < 16
      · have h3 : i - 8 - 1 < 7 := by omega
        simp [h, h1, h2, h3, h8]
      · have h3 : ¬ i - 8 - 1 < 7 := by omega
        simp [h, h1, h3, h8, BitVec.getLsbD_of_ge w i (by omega)]

/-- SETDPL writes bits 14:13 and no other (R151). -/
theorem optSetDpl_bit (w : Half) (d : BitVec 2) (i : Nat) :
    (optSetDpl w d).getLsbD i = if 13 ≤ i ∧ i < 15 then d.getLsbD (i - 13) else w.getLsbD i := by
  unfold optSetDpl
  rw [BitVec.getLsbD_append, BitVec.getLsbD_append, BitVec.getLsbD_extractLsb', BitVec.getLsbD_extractLsb']
  by_cases h : i < 13
  · have h1 : ¬ 13 ≤ i := by omega
    simp [h, h1]
  · by_cases h15 : i < 15
    · have h1 : i - 13 < 2 := by omega
      have h2 : 13 ≤ i := by omega
      simp [h, h1, h2, h15]
    · have h1 : ¬ i - 13 < 2 := by omega
      by_cases h16 : i = 15
      · simp [h16]
      · have h3 : ¬ i - 13 - 2 < 1 := by omega
        simp [h, h1, h3, h15, BitVec.getLsbD_of_ge w i (by omega)]

/-- SETPRES writes bit 15 and no other (R152). -/
theorem optSetPresent_bit (w : Half) (b : Bool) (i : Nat) :
    (optSetPresent w b).getLsbD i = if i = 15 then b else w.getLsbD i := by
  unfold optSetPresent
  rw [BitVec.getLsbD_append, BitVec.getLsbD_extractLsb']
  by_cases h : i < 15
  · have h1 : i ≠ 15 := by omega
    simp [h, h1]
  · by_cases h15 : i = 15
    · simp [h15]
    · have h1 : i - 15 ≠ 0 := by omega
      simp [h, h1, h15, BitVec.getLsbD_of_ge w i (by omega)]

/-- A field is unchanged where its bits are. -/
theorem extract_congr {w x : Half} {lo n : Nat} (h : ∀ i, lo ≤ i → i < lo + n → w.getLsbD i = x.getLsbD i) :
    w.extractLsb' lo n = x.extractLsb' lo n := by
  apply BitVec.eq_of_getLsbD_eq
  intro i hi
  simp [hi, h (lo + i) (by omega) (by omega)]

@[simp] theorem optTrap_setTrap (w : Half) (b : Bool) : optTrap (optSetTrap w b) = b := by
  simp only [optTrap, optSetTrap_bit, if_true]

@[simp] theorem optDpl_setTrap (w : Half) (b : Bool) : optDpl (optSetTrap w b) = optDpl w :=
  extract_congr fun i h1 h2 => by rw [optSetTrap_bit, if_neg (by omega)]

@[simp] theorem optPresent_setTrap (w : Half) (b : Bool) : optPresent (optSetTrap w b) = optPresent w := by
  simp only [optPresent, optSetTrap_bit]
  rfl

@[simp] theorem optTrap_setDpl (w : Half) (d : BitVec 2) : optTrap (optSetDpl w d) = optTrap w := by
  simp only [optTrap, optSetDpl_bit]
  rfl

@[simp] theorem optDpl_setDpl (w : Half) (d : BitVec 2) : optDpl (optSetDpl w d) = d := by
  apply BitVec.eq_of_getLsbD_eq
  intro i hi
  have h1 : 13 + i < 15 := by omega
  simp only [optDpl, BitVec.getLsbD_extractLsb', optSetDpl_bit]
  simp [hi, h1]

@[simp] theorem optPresent_setDpl (w : Half) (d : BitVec 2) : optPresent (optSetDpl w d) = optPresent w := by
  simp only [optPresent, optSetDpl_bit]
  rfl

@[simp] theorem optTrap_setPresent (w : Half) (b : Bool) : optTrap (optSetPresent w b) = optTrap w := by
  simp only [optTrap, optSetPresent_bit]
  rfl

@[simp] theorem optDpl_setPresent (w : Half) (b : Bool) : optDpl (optSetPresent w b) = optDpl w :=
  extract_congr fun i h1 h2 => by rw [optSetPresent_bit, if_neg (by omega)]

@[simp] theorem optPresent_setPresent (w : Half) (b : Bool) : optPresent (optSetPresent w b) = b := by
  simp only [optPresent, optSetPresent_bit, if_true]

/-- Whether a word is legal depends on bits 12, 11:9 and 7:0 only. -/
theorem optLegal_congr {w x : Half} (h : ∀ i, i < 13 → i ≠ 8 → w.getLsbD i = x.getLsbD i) :
    optLegal w = optLegal x := by
  have h1 : optMustBeOne w = optMustBeOne x := extract_congr fun i h1 h2 => h i (by omega) (by omega)
  have h2 : optReservedHigh w = optReservedHigh x := extract_congr fun i h1 h2 => h i (by omega) (by omega)
  have h3 : optReservedLow w = optReservedLow x := extract_congr fun i h1 h2 => h i (by omega) (by omega)
  simp only [optLegal, optKeepsMustBeOne, optKeepsReserved, h1, h2, h3]

@[simp] theorem optLegal_setTrap (w : Half) (b : Bool) : optLegal (optSetTrap w b) = optLegal w :=
  optLegal_congr fun i _ h => by rw [optSetTrap_bit, if_neg h]

@[simp] theorem optLegal_setDpl (w : Half) (d : BitVec 2) : optLegal (optSetDpl w d) = optLegal w :=
  optLegal_congr fun i h _ => by rw [optSetDpl_bit, if_neg (by omega)]

@[simp] theorem optLegal_setPresent (w : Half) (b : Bool) : optLegal (optSetPresent w b) = optLegal w :=
  optLegal_congr fun i h _ => by rw [optSetPresent_bit, if_neg (by omega)]

@[simp] theorem optLegal_installed : optLegal installedOpt = true := by decide

@[simp] theorem optPresent_installed : optPresent installedOpt = true := by decide

@[simp] theorem entOpt_default : entOpt defaultEntry = 0x0E00 := by decide

theorem optLegal_default : optLegal (entOpt defaultEntry) = true := by decide

theorem optPresent_default : optPresent (entOpt defaultEntry) = false := by decide

end Sys2Proof.Machine
end

