-- ==== Sys2Proof/Laws/Memory.lean ====
section
/-! SUPPORT. The laws of the table memory: read after write, the canonical form, wider accesses, and that equal
contents are equal data. -/

namespace Sys2Proof.Machine

/-! ### The canonical form -/

theorem Memory.wfFrom_cons {lo k : Nat} {b : Byte} {m : Memory} :
    Memory.wfFrom lo ((k, b) :: m) = true ↔
      lo ≤ k ∧ k < 2048 ∧ b ≠ resetByte k ∧ Memory.wfFrom (k + 1) m = true := by
  simp [Memory.wfFrom, and_assoc]

theorem Memory.wfFrom_mono {lo lo' : Nat} {m : Memory} (h : Memory.wfFrom lo' m = true) (hl : lo ≤ lo') :
    Memory.wfFrom lo m = true := by
  cases m with
  | nil => rfl
  | cons c m =>
    obtain ⟨k, b⟩ := c
    rw [Memory.wfFrom_cons] at h ⊢
    exact ⟨by omega, h.2⟩

theorem Memory.wfFrom_consCell {lo i : Nat} {b : Byte} {m : Memory} (hm : Memory.wfFrom (i + 1) m = true)
    (hl : lo ≤ i) (hi : i < 2048) : Memory.wfFrom lo (Memory.cons i b m) = true := by
  unfold Memory.cons
  split
  · exact Memory.wfFrom_mono hm (by omega)
  · exact Memory.wfFrom_cons.mpr ⟨hl, hi, ‹_›, hm⟩

theorem Memory.wfFrom_write {lo i : Nat} {b : Byte} {m : Memory} (hm : Memory.wfFrom lo m = true) (hl : lo ≤ i)
    (hi : i < 2048) : Memory.wfFrom lo (Memory.write m i b) = true := by
  induction m generalizing lo with
  | nil => exact Memory.wfFrom_consCell rfl hl hi
  | cons c m ih =>
    obtain ⟨k, c⟩ := c
    have h := Memory.wfFrom_cons.mp hm
    simp only [Memory.write]
    split
    · exact Memory.wfFrom_consCell (Memory.wfFrom_cons.mpr ⟨by omega, h.2⟩) hl hi
    · split
      · exact Memory.wfFrom_consCell (by subst i; exact h.2.2.2) hl hi
      · exact Memory.wfFrom_cons.mpr ⟨h.1, h.2.1, h.2.2.1, ih h.2.2.2 (by omega)⟩

/-- A write inside the table keeps the canonical form. -/
theorem Memory.wf_write {i : Nat} {b : Byte} {m : Memory} (hm : Memory.wf m = true) (hi : i < 2048) :
    Memory.wf (Memory.write m i b) = true :=
  Memory.wfFrom_write hm (Nat.zero_le i) hi

/-! ### One byte -/

theorem Memory.lookup_below {lo i : Nat} {m : Memory} (hm : Memory.wfFrom lo m = true) (hi : i < lo) :
    Memory.lookup m i = none := by
  cases m with
  | nil => rfl
  | cons c m =>
    obtain ⟨k, b⟩ := c
    have h := Memory.wfFrom_cons.mp hm
    have h1 : i ≠ k := by omega
    have h2 : i < k := by omega
    simp [Memory.lookup, h1, h2]

theorem Memory.read_consCell {i j : Nat} {b : Byte} {m : Memory} (hm : Memory.wfFrom (i + 1) m = true) :
    Memory.read (Memory.cons i b m) j = if j = i then b else Memory.read m j := by
  have below : ∀ j, j < i + 1 → Memory.read m j = resetByte j := fun j hj => by
    simp [Memory.read, Memory.lookup_below hm hj]
  unfold Memory.cons
  split
  · split
    · subst j; rw [below i (by omega)]; exact (‹b = _›).symm
    · rfl
  · by_cases h : j = i
    · simp [Memory.read, Memory.lookup, h]
    · by_cases h2 : j < i
      · rw [if_neg h, below j (by omega)]
        simp [Memory.read, Memory.lookup, h, h2]
      · simp [Memory.read, Memory.lookup, h, h2]

theorem Memory.read_cell {lo k j : Nat} {c : Byte} {m : Memory} (hm : Memory.wfFrom lo ((k, c) :: m) = true) :
    Memory.read ((k, c) :: m) j = if j = k then c else Memory.read m j := by
  have h := Memory.wfFrom_cons.mp hm
  have hc : Memory.cons k c m = (k, c) :: m := by simp [Memory.cons, h.2.2.1]
  rw [← hc, Memory.read_consCell h.2.2.2]

theorem Memory.read_writeFrom {lo i j : Nat} {b : Byte} {m : Memory} (hm : Memory.wfFrom lo m = true) :
    Memory.read (Memory.write m i b) j = if j = i then b else Memory.read m j := by
  induction m generalizing lo with
  | nil => exact Memory.read_consCell (m := []) rfl
  | cons c m ih =>
    obtain ⟨k, c⟩ := c
    have h := Memory.wfFrom_cons.mp hm
    simp only [Memory.write]
    split
    · exact Memory.read_consCell (Memory.wfFrom_cons.mpr ⟨by omega, h.2⟩)
    · split
      · subst i
        rw [Memory.read_consCell h.2.2.2, Memory.read_cell hm]
        split <;> rfl
      · by_cases hj : j = k
        · have : j ≠ i := by omega
          simp [Memory.read, Memory.lookup, hj, Ne.symm ‹¬ i = k›]
        · by_cases hjk : j < k
          · have : j ≠ i := by omega
            simp [Memory.read, Memory.lookup, hj, hjk, this]
          · have e := ih (lo := k + 1) h.2.2.2
            simpa [Memory.read, Memory.lookup, hj, hjk] using e

/-- Reading a byte after a write: the written byte at its index, every other byte as before. -/
theorem Memory.read_write {i j : Nat} {b : Byte} {m : Memory} (hm : Memory.wf m = true) :
    Memory.read (Memory.write m i b) j = if j = i then b else Memory.read m j :=
  Memory.read_writeFrom hm

/-- Canonical memories with the same contents are the same data. -/
theorem Memory.extFrom {lo : Nat} {m m' : Memory} (hm : Memory.wfFrom lo m = true) (hm' : Memory.wfFrom lo m' = true)
    (h : ∀ i, Memory.read m i = Memory.read m' i) : m = m' := by
  induction m generalizing lo m' with
  | nil =>
    cases m' with
    | nil => rfl
    | cons c m' =>
      obtain ⟨k, c⟩ := c
      have hc := Memory.wfFrom_cons.mp hm'
      have e := h k
      rw [Memory.read_cell hm', if_pos rfl] at e
      exact absurd e.symm hc.2.2.1
  | cons c m ih =>
    obtain ⟨k, c⟩ := c
    have hc := Memory.wfFrom_cons.mp hm
    cases m' with
    | nil =>
      have e := h k
      rw [Memory.read_cell hm, if_pos rfl] at e
      exact absurd e hc.2.2.1
    | cons c' m' =>
      obtain ⟨k', c'⟩ := c'
      have hc' := Memory.wfFrom_cons.mp hm'
      have below : ∀ {i n : Nat} {x : Memory}, Memory.wfFrom (n + 1) x = true → i < n + 1 → Memory.read x i = resetByte i :=
        fun hx hi => by simp [Memory.read, Memory.lookup_below hx hi]
      have hk : k = k' := by
        rcases Nat.lt_trichotomy k k' with hlt | heq | hgt
        · have e := h k
          rw [Memory.read_cell hm, if_pos rfl, Memory.read_cell hm', if_neg (by omega),
            below hc'.2.2.2 (by omega)] at e
          exact absurd e hc.2.2.1
        · exact heq
        · have e := h k'
          rw [Memory.read_cell hm', if_pos rfl, Memory.read_cell hm, if_neg (by omega),
            below hc.2.2.2 (by omega)] at e
          exact absurd e.symm hc'.2.2.1
      subst k'
      have hb : c = c' := by
        have e := h k
        rwa [Memory.read_cell hm, Memory.read_cell hm', if_pos rfl, if_pos rfl] at e
      subst c'
      congr 1
      refine ih hc.2.2.2 hc'.2.2.2 (fun i => ?_)
      by_cases hi : i = k
      · subst i
        rw [below hc.2.2.2 (by omega), below hc'.2.2.2 (by omega)]
      · have e := h i
        rwa [Memory.read_cell hm, Memory.read_cell hm', if_neg hi, if_neg hi] at e

theorem Memory.ext {m m' : Memory} (hm : Memory.wf m = true) (hm' : Memory.wf m' = true)
    (h : ∀ i, Memory.read m i = Memory.read m' i) : m = m' :=
  Memory.extFrom hm hm' h

/-! ### Wider accesses -/

theorem Memory.wf_writeLE {i n x : Nat} {m : Memory} (hm : Memory.wf m = true) (hi : i + n ≤ 2048) :
    Memory.wf (Memory.writeLE m i n x) = true := by
  induction n generalizing i x m with
  | zero => exact hm
  | succ n ih => exact ih (Memory.wf_write hm (by omega)) (by omega)

/-- A wide write leaves every byte outside it alone. -/
theorem Memory.read_writeLE_outside {i n x j : Nat} {m : Memory} (hm : Memory.wf m = true)
    (hi : i + n ≤ 2048) (hj : j < i ∨ i + n ≤ j) :
    Memory.read (Memory.writeLE m i n x) j = Memory.read m j := by
  induction n generalizing i x m with
  | zero => rfl
  | succ n ih =>
    rw [Memory.writeLE, ih (Memory.wf_write hm (by omega)) (by omega) (by omega), Memory.read_write hm,
      if_neg (by omega)]

theorem Memory.readLE_congr {i n : Nat} {m m' : Memory}
    (h : ∀ j, i ≤ j → j < i + n → Memory.read m j = Memory.read m' j) :
    Memory.readLE m i n = Memory.readLE m' i n := by
  induction n generalizing i with
  | zero => rfl
  | succ n ih =>
    rw [Memory.readLE, Memory.readLE, h i (by omega) (by omega), ih (fun j h1 h2 => h j (by omega) (by omega))]

/-- A wide read after a wide write of the same bytes gives the value's low bytes. -/
theorem Memory.readLE_writeLE {i n x : Nat} {m : Memory} (hm : Memory.wf m = true) (hi : i + n ≤ 2048) :
    Memory.readLE (Memory.writeLE m i n x) i n = x % 256 ^ n := by
  induction n generalizing i x m with
  | zero => simp [Memory.readLE, Nat.mod_one]
  | succ n ih =>
    have hw := Memory.wf_write (b := BitVec.ofNat 8 x) hm (show i < 2048 by omega)
    rw [Memory.writeLE, Memory.readLE, Memory.read_writeLE_outside hw (by omega) (by omega), Memory.read_write hm,
      if_pos rfl, ih hw (by omega), BitVec.toNat_ofNat,
      show 256 ^ (n + 1) = 256 * 256 ^ n by rw [Nat.pow_succ, Nat.mul_comm], Nat.mod_mul]

theorem Memory.readLE_lt {i n : Nat} {m : Memory} : Memory.readLE m i n < 256 ^ n := by
  induction n generalizing i with
  | zero => simp [Memory.readLE]
  | succ n ih =>
    have h1 := (Memory.read m i).isLt
    have h2 := ih (i := i + 1)
    rw [Memory.readLE, Nat.pow_succ]
    omega

/-- Equal wide reads have equal bytes. -/
theorem Memory.read_of_readLE {i n k : Nat} {m m' : Memory} (h : Memory.readLE m i n = Memory.readLE m' i n)
    (hk : k < n) : Memory.read m (i + k) = Memory.read m' (i + k) := by
  induction n generalizing i k with
  | zero => omega
  | succ n ih =>
    rw [Memory.readLE, Memory.readLE] at h
    have h1 := (Memory.read m i).isLt
    have h2 := (Memory.read m' i).isLt
    have hb : (Memory.read m i).toNat = (Memory.read m' i).toNat := by omega
    have hr : Memory.readLE m (i + 1) n = Memory.readLE m' (i + 1) n := by omega
    cases k with
    | zero => exact BitVec.eq_of_toNat_eq hb
    | succ k =>
      have := ih hr (show k < n by omega)
      rwa [show i + (k + 1) = i + 1 + k by omega]

end Sys2Proof.Machine
end

