-- ==== Sys2Proof/Laws/PerInstr.lean ====
section
/-! SUPPORT. The per-instruction family EncodedOpcode: the word of a command carries the command's OP code in bits
63:60 and 0 in the reserved bit (spec/30_encoding.md R81, R88, R92). -/

namespace Sys2Proof.Laws.EncodedOpcode

/-- Bits 63:60 of the command's word are its OP code and bit 56 is 0. -/
def Statement (i : Instr) : Prop :=
  opOfCode (encodeFields i).op = some i.op ∧ (encodeFields i).r = 0

theorem clr (p : Path) (v : Vec) : Statement (.clr p v) := ⟨rfl, rfl⟩
theorem setAddr (p : Path) (v : Vec) (a : Word) : Statement (.setAddr p v a) := ⟨rfl, rfl⟩
theorem setFn (p : Path) (k : HandlerKind) (v : Vec) (a : Word) : Statement (.setFn p k v a) := ⟨rfl, rfl⟩
theorem setOpt (p : Path) (v : Vec) (w : Half) : Statement (.setOpt p v w) := ⟨rfl, rfl⟩
theorem setTrap (p : Path) (v : Vec) (aux : Half) : Statement (.setTrap p v aux) := ⟨rfl, rfl⟩
theorem setDpl (p : Path) (v : Vec) (aux : Half) : Statement (.setDpl p v aux) := ⟨rfl, rfl⟩
theorem setPres (p : Path) (v : Vec) (aux : Half) : Statement (.setPres p v aux) := ⟨rfl, rfl⟩
theorem getEnt (p : Path) (v : Vec) : Statement (.getEnt p v) := ⟨rfl, rfl⟩
theorem getAddr (p : Path) (v : Vec) : Statement (.getAddr p v) := ⟨rfl, rfl⟩
theorem getOpt (p : Path) (v : Vec) : Statement (.getOpt p v) := ⟨rfl, rfl⟩
theorem getTrap (p : Path) (v : Vec) : Statement (.getTrap p v) := ⟨rfl, rfl⟩
theorem getDpl (p : Path) (v : Vec) : Statement (.getDpl p v) := ⟨rfl, rfl⟩
theorem getPres (p : Path) (v : Vec) : Statement (.getPres p v) := ⟨rfl, rfl⟩
theorem lidt (limit : Half) (base : Word) : Statement (.lidt limit base) := ⟨rfl, rfl⟩
theorem publish : Statement .publish := ⟨rfl, rfl⟩

end Sys2Proof.Laws.EncodedOpcode
end

