-- ==== Sys2Proof/Laws/State.lean ====
section
/-! SUPPORT. One lemma per field per update of State, true by rfl. -/

namespace Sys2Proof.Machine

section

variable (s : State)

/-! ### setEnt -/

@[simp] theorem State.setEnt_hv (v : Vec) (e : DWord) : (s.setEnt v e).hv = s.hv := rfl
@[simp] theorem State.setEnt_idtr (v : Vec) (e : DWord) : (s.setEnt v e).idtr = s.idtr := rfl
@[simp] theorem State.setEnt_published (v : Vec) (e : DWord) : (s.setEnt v e).published = s.published := rfl
@[simp] theorem State.setEnt_aborted (v : Vec) (e : DWord) : (s.setEnt v e).aborted = s.aborted := rfl
@[simp] theorem State.setEnt_err (v : Vec) (e : DWord) : (s.setEnt v e).err = s.err := rfl
@[simp] theorem State.setEnt_rdata (v : Vec) (e : DWord) : (s.setEnt v e).rdata = s.rdata := rfl
@[simp] theorem State.setEnt_csIn (v : Vec) (e : DWord) : (s.setEnt v e).csIn = s.csIn := rfl
@[simp] theorem State.setEnt_cplIn (v : Vec) (e : DWord) : (s.setEnt v e).cplIn = s.cplIn := rfl
@[simp] theorem State.setEnt_ifIn (v : Vec) (e : DWord) : (s.setEnt v e).ifIn = s.ifIn := rfl
@[simp] theorem State.setEnt_inputs (v : Vec) (e : DWord) : (s.setEnt v e).inputs = s.inputs := rfl
@[simp] theorem State.setEnt_gateData (v : Vec) (e : DWord) : (s.setEnt v e).gateData = s.gateData := rfl
@[simp] theorem State.setEnt_cpuTarget (v : Vec) (e : DWord) : (s.setEnt v e).cpuTarget = s.cpuTarget := rfl
@[simp] theorem State.setEnt_cpuFlags (v : Vec) (e : DWord) : (s.setEnt v e).cpuFlags = s.cpuFlags := rfl
@[simp] theorem State.setEnt_active (v : Vec) (e : DWord) : (s.setEnt v e).active = s.active := rfl
@[simp] theorem State.setEnt_draws (v : Vec) (e : DWord) : (s.setEnt v e).draws = s.draws := rfl

/-! ### setOpt -/

@[simp] theorem State.setOpt_hv (v : Vec) (w : Half) : (s.setOpt v w).hv = s.hv := rfl
@[simp] theorem State.setOpt_idtr (v : Vec) (w : Half) : (s.setOpt v w).idtr = s.idtr := rfl
@[simp] theorem State.setOpt_published (v : Vec) (w : Half) : (s.setOpt v w).published = s.published := rfl
@[simp] theorem State.setOpt_aborted (v : Vec) (w : Half) : (s.setOpt v w).aborted = s.aborted := rfl
@[simp] theorem State.setOpt_err (v : Vec) (w : Half) : (s.setOpt v w).err = s.err := rfl
@[simp] theorem State.setOpt_rdata (v : Vec) (w : Half) : (s.setOpt v w).rdata = s.rdata := rfl
@[simp] theorem State.setOpt_csIn (v : Vec) (w : Half) : (s.setOpt v w).csIn = s.csIn := rfl
@[simp] theorem State.setOpt_cplIn (v : Vec) (w : Half) : (s.setOpt v w).cplIn = s.cplIn := rfl
@[simp] theorem State.setOpt_ifIn (v : Vec) (w : Half) : (s.setOpt v w).ifIn = s.ifIn := rfl
@[simp] theorem State.setOpt_inputs (v : Vec) (w : Half) : (s.setOpt v w).inputs = s.inputs := rfl
@[simp] theorem State.setOpt_gateData (v : Vec) (w : Half) : (s.setOpt v w).gateData = s.gateData := rfl
@[simp] theorem State.setOpt_cpuTarget (v : Vec) (w : Half) : (s.setOpt v w).cpuTarget = s.cpuTarget := rfl
@[simp] theorem State.setOpt_cpuFlags (v : Vec) (w : Half) : (s.setOpt v w).cpuFlags = s.cpuFlags := rfl
@[simp] theorem State.setOpt_active (v : Vec) (w : Half) : (s.setOpt v w).active = s.active := rfl
@[simp] theorem State.setOpt_draws (v : Vec) (w : Half) : (s.setOpt v w).draws = s.draws := rfl

/-! ### setHv -/

@[simp] theorem State.setHv_tbl (v : Vec) (b : Bool) : (s.setHv v b).tbl = s.tbl := rfl
@[simp] theorem State.setHv_idtr (v : Vec) (b : Bool) : (s.setHv v b).idtr = s.idtr := rfl
@[simp] theorem State.setHv_published (v : Vec) (b : Bool) : (s.setHv v b).published = s.published := rfl
@[simp] theorem State.setHv_aborted (v : Vec) (b : Bool) : (s.setHv v b).aborted = s.aborted := rfl
@[simp] theorem State.setHv_err (v : Vec) (b : Bool) : (s.setHv v b).err = s.err := rfl
@[simp] theorem State.setHv_rdata (v : Vec) (b : Bool) : (s.setHv v b).rdata = s.rdata := rfl
@[simp] theorem State.setHv_csIn (v : Vec) (b : Bool) : (s.setHv v b).csIn = s.csIn := rfl
@[simp] theorem State.setHv_cplIn (v : Vec) (b : Bool) : (s.setHv v b).cplIn = s.cplIn := rfl
@[simp] theorem State.setHv_ifIn (v : Vec) (b : Bool) : (s.setHv v b).ifIn = s.ifIn := rfl
@[simp] theorem State.setHv_inputs (v : Vec) (b : Bool) : (s.setHv v b).inputs = s.inputs := rfl
@[simp] theorem State.setHv_gateData (v : Vec) (b : Bool) : (s.setHv v b).gateData = s.gateData := rfl
@[simp] theorem State.setHv_cpuTarget (v : Vec) (b : Bool) : (s.setHv v b).cpuTarget = s.cpuTarget := rfl
@[simp] theorem State.setHv_cpuFlags (v : Vec) (b : Bool) : (s.setHv v b).cpuFlags = s.cpuFlags := rfl
@[simp] theorem State.setHv_active (v : Vec) (b : Bool) : (s.setHv v b).active = s.active := rfl
@[simp] theorem State.setHv_draws (v : Vec) (b : Bool) : (s.setHv v b).draws = s.draws := rfl

/-! ### setRdata -/

@[simp] theorem State.setRdata_tbl (x : DWord) : (s.setRdata x).tbl = s.tbl := rfl
@[simp] theorem State.setRdata_hv (x : DWord) : (s.setRdata x).hv = s.hv := rfl
@[simp] theorem State.setRdata_idtr (x : DWord) : (s.setRdata x).idtr = s.idtr := rfl
@[simp] theorem State.setRdata_published (x : DWord) : (s.setRdata x).published = s.published := rfl
@[simp] theorem State.setRdata_aborted (x : DWord) : (s.setRdata x).aborted = s.aborted := rfl
@[simp] theorem State.setRdata_err (x : DWord) : (s.setRdata x).err = s.err := rfl
@[simp] theorem State.setRdata_rdata (x : DWord) : (s.setRdata x).rdata = x := rfl
@[simp] theorem State.setRdata_csIn (x : DWord) : (s.setRdata x).csIn = s.csIn := rfl
@[simp] theorem State.setRdata_cplIn (x : DWord) : (s.setRdata x).cplIn = s.cplIn := rfl
@[simp] theorem State.setRdata_ifIn (x : DWord) : (s.setRdata x).ifIn = s.ifIn := rfl
@[simp] theorem State.setRdata_inputs (x : DWord) : (s.setRdata x).inputs = s.inputs := rfl
@[simp] theorem State.setRdata_gateData (x : DWord) : (s.setRdata x).gateData = s.gateData := rfl
@[simp] theorem State.setRdata_cpuTarget (x : DWord) : (s.setRdata x).cpuTarget = s.cpuTarget := rfl
@[simp] theorem State.setRdata_cpuFlags (x : DWord) : (s.setRdata x).cpuFlags = s.cpuFlags := rfl
@[simp] theorem State.setRdata_active (x : DWord) : (s.setRdata x).active = s.active := rfl
@[simp] theorem State.setRdata_draws (x : DWord) : (s.setRdata x).draws = s.draws := rfl

/-! ### setIdtr -/

@[simp] theorem State.setIdtr_tbl (r : Idtr) : (s.setIdtr r).tbl = s.tbl := rfl
@[simp] theorem State.setIdtr_hv (r : Idtr) : (s.setIdtr r).hv = s.hv := rfl
@[simp] theorem State.setIdtr_idtr (r : Idtr) : (s.setIdtr r).idtr = r := rfl
@[simp] theorem State.setIdtr_published (r : Idtr) : (s.setIdtr r).published = s.published := rfl
@[simp] theorem State.setIdtr_aborted (r : Idtr) : (s.setIdtr r).aborted = s.aborted := rfl
@[simp] theorem State.setIdtr_err (r : Idtr) : (s.setIdtr r).err = s.err := rfl
@[simp] theorem State.setIdtr_rdata (r : Idtr) : (s.setIdtr r).rdata = s.rdata := rfl
@[simp] theorem State.setIdtr_csIn (r : Idtr) : (s.setIdtr r).csIn = s.csIn := rfl
@[simp] theorem State.setIdtr_cplIn (r : Idtr) : (s.setIdtr r).cplIn = s.cplIn := rfl
@[simp] theorem State.setIdtr_ifIn (r : Idtr) : (s.setIdtr r).ifIn = s.ifIn := rfl
@[simp] theorem State.setIdtr_inputs (r : Idtr) : (s.setIdtr r).inputs = s.inputs := rfl
@[simp] theorem State.setIdtr_gateData (r : Idtr) : (s.setIdtr r).gateData = s.gateData := rfl
@[simp] theorem State.setIdtr_cpuTarget (r : Idtr) : (s.setIdtr r).cpuTarget = s.cpuTarget := rfl
@[simp] theorem State.setIdtr_cpuFlags (r : Idtr) : (s.setIdtr r).cpuFlags = s.cpuFlags := rfl
@[simp] theorem State.setIdtr_active (r : Idtr) : (s.setIdtr r).active = s.active := rfl
@[simp] theorem State.setIdtr_draws (r : Idtr) : (s.setIdtr r).draws = s.draws := rfl

/-! ### markPublished -/

@[simp] theorem State.markPublished_tbl : (s.markPublished).tbl = s.tbl := rfl
@[simp] theorem State.markPublished_hv : (s.markPublished).hv = s.hv := rfl
@[simp] theorem State.markPublished_idtr : (s.markPublished).idtr = s.idtr := rfl
@[simp] theorem State.markPublished_published : (s.markPublished).published = true := rfl
@[simp] theorem State.markPublished_aborted : (s.markPublished).aborted = s.aborted := rfl
@[simp] theorem State.markPublished_err : (s.markPublished).err = s.err := rfl
@[simp] theorem State.markPublished_rdata : (s.markPublished).rdata = s.rdata := rfl
@[simp] theorem State.markPublished_csIn : (s.markPublished).csIn = s.csIn := rfl
@[simp] theorem State.markPublished_cplIn : (s.markPublished).cplIn = s.cplIn := rfl
@[simp] theorem State.markPublished_ifIn : (s.markPublished).ifIn = s.ifIn := rfl
@[simp] theorem State.markPublished_inputs : (s.markPublished).inputs = s.inputs := rfl
@[simp] theorem State.markPublished_gateData : (s.markPublished).gateData = s.gateData := rfl
@[simp] theorem State.markPublished_cpuTarget : (s.markPublished).cpuTarget = s.cpuTarget := rfl
@[simp] theorem State.markPublished_cpuFlags : (s.markPublished).cpuFlags = s.cpuFlags := rfl
@[simp] theorem State.markPublished_active : (s.markPublished).active = s.active := rfl
@[simp] theorem State.markPublished_draws : (s.markPublished).draws = s.draws := rfl

/-! ### abort -/

@[simp] theorem State.abort_tbl (c : AbortCode) : (s.abort c).tbl = s.tbl := rfl
@[simp] theorem State.abort_hv (c : AbortCode) : (s.abort c).hv = s.hv := rfl
@[simp] theorem State.abort_idtr (c : AbortCode) : (s.abort c).idtr = s.idtr := rfl
@[simp] theorem State.abort_published (c : AbortCode) : (s.abort c).published = s.published := rfl
@[simp] theorem State.abort_aborted (c : AbortCode) : (s.abort c).aborted = true := rfl
@[simp] theorem State.abort_err (c : AbortCode) : (s.abort c).err = c.code := rfl
@[simp] theorem State.abort_rdata (c : AbortCode) : (s.abort c).rdata = s.rdata := rfl
@[simp] theorem State.abort_csIn (c : AbortCode) : (s.abort c).csIn = s.csIn := rfl
@[simp] theorem State.abort_cplIn (c : AbortCode) : (s.abort c).cplIn = s.cplIn := rfl
@[simp] theorem State.abort_ifIn (c : AbortCode) : (s.abort c).ifIn = s.ifIn := rfl
@[simp] theorem State.abort_inputs (c : AbortCode) : (s.abort c).inputs = s.inputs := rfl
@[simp] theorem State.abort_gateData (c : AbortCode) : (s.abort c).gateData = s.gateData := rfl
@[simp] theorem State.abort_cpuTarget (c : AbortCode) : (s.abort c).cpuTarget = s.cpuTarget := rfl
@[simp] theorem State.abort_cpuFlags (c : AbortCode) : (s.abort c).cpuFlags = s.cpuFlags := rfl
@[simp] theorem State.abort_active (c : AbortCode) : (s.abort c).active = s.active := rfl
@[simp] theorem State.abort_draws (c : AbortCode) : (s.abort c).draws = s.draws := rfl

/-! ### install -/

@[simp] theorem State.install_idtr (v : Vec) (a : Word) : (s.install v a).idtr = s.idtr := rfl
@[simp] theorem State.install_published (v : Vec) (a : Word) : (s.install v a).published = s.published := rfl
@[simp] theorem State.install_aborted (v : Vec) (a : Word) : (s.install v a).aborted = s.aborted := rfl
@[simp] theorem State.install_err (v : Vec) (a : Word) : (s.install v a).err = s.err := rfl
@[simp] theorem State.install_rdata (v : Vec) (a : Word) : (s.install v a).rdata = s.rdata := rfl
@[simp] theorem State.install_csIn (v : Vec) (a : Word) : (s.install v a).csIn = s.csIn := rfl
@[simp] theorem State.install_cplIn (v : Vec) (a : Word) : (s.install v a).cplIn = s.cplIn := rfl
@[simp] theorem State.install_ifIn (v : Vec) (a : Word) : (s.install v a).ifIn = s.ifIn := rfl
@[simp] theorem State.install_inputs (v : Vec) (a : Word) : (s.install v a).inputs = s.inputs := rfl
@[simp] theorem State.install_gateData (v : Vec) (a : Word) : (s.install v a).gateData = s.gateData := rfl
@[simp] theorem State.install_cpuTarget (v : Vec) (a : Word) : (s.install v a).cpuTarget = s.cpuTarget := rfl
@[simp] theorem State.install_cpuFlags (v : Vec) (a : Word) : (s.install v a).cpuFlags = s.cpuFlags := rfl
@[simp] theorem State.install_active (v : Vec) (a : Word) : (s.install v a).active = s.active := rfl
@[simp] theorem State.install_draws (v : Vec) (a : Word) : (s.install v a).draws = s.draws := rfl

/-! ### withFetchWord -/

@[simp] theorem State.withFetchWord_tbl (n w : Nat) : (s.withFetchWord n w).tbl = s.tbl := rfl
@[simp] theorem State.withFetchWord_hv (n w : Nat) : (s.withFetchWord n w).hv = s.hv := rfl
@[simp] theorem State.withFetchWord_idtr (n w : Nat) : (s.withFetchWord n w).idtr = s.idtr := rfl
@[simp] theorem State.withFetchWord_published (n w : Nat) : (s.withFetchWord n w).published = s.published := rfl
@[simp] theorem State.withFetchWord_aborted (n w : Nat) : (s.withFetchWord n w).aborted = s.aborted := rfl
@[simp] theorem State.withFetchWord_err (n w : Nat) : (s.withFetchWord n w).err = s.err := rfl
@[simp] theorem State.withFetchWord_rdata (n w : Nat) : (s.withFetchWord n w).rdata = s.rdata := rfl
@[simp] theorem State.withFetchWord_csIn (n w : Nat) : (s.withFetchWord n w).csIn = s.csIn := rfl
@[simp] theorem State.withFetchWord_cplIn (n w : Nat) : (s.withFetchWord n w).cplIn = s.cplIn := rfl
@[simp] theorem State.withFetchWord_ifIn (n w : Nat) : (s.withFetchWord n w).ifIn = s.ifIn := rfl
@[simp] theorem State.withFetchWord_gateData (n w : Nat) : (s.withFetchWord n w).gateData = s.gateData := rfl
@[simp] theorem State.withFetchWord_cpuTarget (n w : Nat) : (s.withFetchWord n w).cpuTarget = s.cpuTarget := rfl
@[simp] theorem State.withFetchWord_cpuFlags (n w : Nat) : (s.withFetchWord n w).cpuFlags = s.cpuFlags := rfl
@[simp] theorem State.withFetchWord_active (n w : Nat) : (s.withFetchWord n w).active = s.active := rfl
@[simp] theorem State.withFetchWord_draws (n w : Nat) : (s.withFetchWord n w).draws = s.draws := rfl

/-! ### setInputs -/

@[simp] theorem State.setInputs_tbl (rest : List Input) : (s.setInputs rest).tbl = s.tbl := rfl
@[simp] theorem State.setInputs_hv (rest : List Input) : (s.setInputs rest).hv = s.hv := rfl
@[simp] theorem State.setInputs_idtr (rest : List Input) : (s.setInputs rest).idtr = s.idtr := rfl
@[simp] theorem State.setInputs_published (rest : List Input) : (s.setInputs rest).published = s.published := rfl
@[simp] theorem State.setInputs_aborted (rest : List Input) : (s.setInputs rest).aborted = s.aborted := rfl
@[simp] theorem State.setInputs_err (rest : List Input) : (s.setInputs rest).err = s.err := rfl
@[simp] theorem State.setInputs_rdata (rest : List Input) : (s.setInputs rest).rdata = s.rdata := rfl
@[simp] theorem State.setInputs_csIn (rest : List Input) : (s.setInputs rest).csIn = s.csIn := rfl
@[simp] theorem State.setInputs_cplIn (rest : List Input) : (s.setInputs rest).cplIn = s.cplIn := rfl
@[simp] theorem State.setInputs_ifIn (rest : List Input) : (s.setInputs rest).ifIn = s.ifIn := rfl
@[simp] theorem State.setInputs_inputs (rest : List Input) : (s.setInputs rest).inputs = rest := rfl
@[simp] theorem State.setInputs_gateData (rest : List Input) : (s.setInputs rest).gateData = s.gateData := rfl
@[simp] theorem State.setInputs_cpuTarget (rest : List Input) : (s.setInputs rest).cpuTarget = s.cpuTarget := rfl
@[simp] theorem State.setInputs_cpuFlags (rest : List Input) : (s.setInputs rest).cpuFlags = s.cpuFlags := rfl
@[simp] theorem State.setInputs_active (rest : List Input) : (s.setInputs rest).active = s.active := rfl
@[simp] theorem State.setInputs_draws (rest : List Input) : (s.setInputs rest).draws = s.draws := rfl

/-! ### resetBlock -/

@[simp] theorem State.resetBlock_tbl : s.resetBlock.tbl = [] := rfl
@[simp] theorem State.resetBlock_hv : s.resetBlock.hv = 0 := rfl
@[simp] theorem State.resetBlock_published : s.resetBlock.published = false := rfl
@[simp] theorem State.resetBlock_aborted : s.resetBlock.aborted = false := rfl
@[simp] theorem State.resetBlock_err : s.resetBlock.err = 0 := rfl
@[simp] theorem State.resetBlock_rdata : s.resetBlock.rdata = 0 := rfl
@[simp] theorem State.resetBlock_csIn : s.resetBlock.csIn = s.csIn := rfl
@[simp] theorem State.resetBlock_cplIn : s.resetBlock.cplIn = s.cplIn := rfl
@[simp] theorem State.resetBlock_ifIn : s.resetBlock.ifIn = s.ifIn := rfl
@[simp] theorem State.resetBlock_inputs : s.resetBlock.inputs = s.inputs := rfl
@[simp] theorem State.resetBlock_draws : s.resetBlock.draws = s.draws + 1 := rfl

end

end Sys2Proof.Machine
end

