-- ==== Sys2Proof/Laws/Slot.lean ====
section
/-! SUPPORT. The laws of slots and handler-valid bits over State (spec/10_state.md R23, R27, spec/20_memory.md R51,
R55): what a slot write changes, what it leaves, and the slot as seen from the system address space. -/

namespace Sys2Proof.Machine

/-- Every slot lies inside the table (R162). -/
theorem slotIndex_le (v : Vec) : slotIndex v + 8 ≤ 2048 := by
  have h := v.isLt
  unfold slotIndex
  omega

/-- Two slots do not overlap (R162). -/
theorem slotIndex_apart {u v : Vec} (h : u ≠ v) :
    slotIndex u + 8 ≤ slotIndex v ∨ slotIndex v + 8 ≤ slotIndex u := by
  have hn : u.toNat ≠ v.toNat := fun e => h (BitVec.eq_of_toNat_eq e)
  unfold slotIndex
  omega

/-! ### Slot writes -/

theorem State.setEnt_canonical {s : State} {v : Vec} {e : DWord} (h : s.tableCanonical) :
    (s.setEnt v e).tableCanonical :=
  Memory.wf_writeLE h (slotIndex_le v)

theorem State.ent_setEnt_self {s : State} {v : Vec} {e : DWord} (h : s.tableCanonical) : (s.setEnt v e).ent v = e := by
  apply BitVec.eq_of_toNat_eq
  have hlt := e.isLt
  simp only [State.ent, State.setEnt, BitVec.toNat_ofNat]
  rw [Memory.readLE_writeLE h (slotIndex_le v)]
  omega

theorem State.tblByte_setEnt {s : State} {v : Vec} {e : DWord} {i : Nat} (h : s.tableCanonical)
    (hi : i < slotIndex v ∨ slotIndex v + 8 ≤ i) : (s.setEnt v e).tblByte i = s.tblByte i :=
  Memory.read_writeLE_outside h (slotIndex_le v) hi

theorem State.ent_congr {s t : State} {v : Vec}
    (h : ∀ i, slotIndex v ≤ i → i < slotIndex v + 8 → t.tblByte i = s.tblByte i) : t.ent v = s.ent v := by
  unfold State.ent
  rw [Memory.readLE_congr h]

theorem State.ent_setEnt_other {s : State} {u v : Vec} {e : DWord} (h : s.tableCanonical) (hu : u ≠ v) :
    (s.setEnt v e).ent u = s.ent u :=
  State.ent_congr fun _ h1 h2 => State.tblByte_setEnt h (by have := slotIndex_apart hu; omega)

theorem State.ent_setEnt {s : State} {u v : Vec} {e : DWord} (h : s.tableCanonical) :
    (s.setEnt v e).ent u = if u = v then e else s.ent u := by
  split
  · subst u; exact State.ent_setEnt_self h
  · exact State.ent_setEnt_other h ‹_›

/-- Slots that read alike have the same bytes. -/
theorem State.tblByte_of_ent {s t : State} {v : Vec} {k : Nat} (h : t.ent v = s.ent v) (hk : k < 8) :
    t.tblByte (slotIndex v + k) = s.tblByte (slotIndex v + k) := by
  refine Memory.read_of_readLE (n := 8) ?_ hk
  have h1 := Memory.readLE_lt (i := slotIndex v) (n := 8) (m := t.tbl)
  have h2 := Memory.readLE_lt (i := slotIndex v) (n := 8) (m := s.tbl)
  have e := congrArg BitVec.toNat h
  simp only [State.ent, BitVec.toNat_ofNat] at e
  omega

/-- A byte of the table lies in exactly the slot of its index divided by 8. -/
theorem slotIndex_of_byte {i : Nat} (h : i < 2048) :
    ∃ v : Vec, ∃ k, k < 8 ∧ i = slotIndex v + k := by
  refine ⟨BitVec.ofNat 8 (i / 8), i % 8, by omega, ?_⟩
  simp only [slotIndex, BitVec.toNat_ofNat] at *
  omega

theorem Memory.lookup_above {lo i : Nat} {m : Memory} (hm : Memory.wfFrom lo m = true) (hi : 2048 ≤ i) :
    Memory.lookup m i = none := by
  induction m generalizing lo with
  | nil => rfl
  | cons c m ih =>
    obtain ⟨k, b⟩ := c
    have h := Memory.wfFrom_cons.mp hm
    have h1 : i ≠ k := by omega
    simp only [Memory.lookup, h1, if_false]
    split
    · rfl
    · exact ih h.2.2.2

/-- Canonical tables with the same entries are the same data. -/
theorem tbl_eq_of_ent {s t : State} (hs : s.tableCanonical) (ht : t.tableCanonical)
    (h : ∀ v, t.ent v = s.ent v) : t.tbl = s.tbl := by
  refine Memory.ext ht hs fun i => ?_
  by_cases hi : i < 2048
  · obtain ⟨v, k, hk, rfl⟩ := slotIndex_of_byte hi
    exact State.tblByte_of_ent (h v) hk
  · unfold Memory.read
    rw [Memory.lookup_above ht (by omega), Memory.lookup_above hs (by omega)]

/-! ### Handler-valid bits -/

theorem State.hvBit_setHv {s : State} {u v : Vec} {b : Bool} :
    (s.setHv v b).hvBit u = if u = v then b else s.hvBit u := by
  have hu := u.isLt
  have hv := v.isLt
  have hiff : u = v ↔ u.toNat = v.toNat := ⟨congrArg _, BitVec.eq_of_toNat_eq⟩
  simp only [State.hvBit, State.setHv, hiff]
  by_cases h : u.toNat = v.toNat
  · cases b <;> simp [h, hv]
  · cases b
    · by_cases h2 : u.toNat < v.toNat
      · simp [h, hu, h2]
      · have : u.toNat - v.toNat ≠ 0 := by omega
        simp [h, hu, this]
    · by_cases h2 : u.toNat < v.toNat
      · simp [h, h2]
      · have : u.toNat - v.toNat ≠ 0 := by omega
        simp [h, this]

@[simp] theorem State.hvBit_setEnt {s : State} {u v : Vec} {e : DWord} : (s.setEnt v e).hvBit u = s.hvBit u := rfl

@[simp] theorem State.ent_setHv {s : State} {u v : Vec} {b : Bool} : (s.setHv v b).ent u = s.ent u := rfl

/-! ### Views under the other updates -/

@[simp] theorem State.ent_setRdata {s : State} {u : Vec} {x : DWord} : (s.setRdata x).ent u = s.ent u := rfl

@[simp] theorem State.ent_setIdtr {s : State} {u : Vec} {r : Idtr} : (s.setIdtr r).ent u = s.ent u := rfl

@[simp] theorem State.ent_markPublished {s : State} {u : Vec} : s.markPublished.ent u = s.ent u := rfl

@[simp] theorem State.ent_abort {s : State} {u : Vec} {c : AbortCode} : (s.abort c).ent u = s.ent u := rfl

@[simp] theorem State.ent_setInputs {s : State} {u : Vec} {rest : List Input} : (s.setInputs rest).ent u = s.ent u :=
  rfl

@[simp] theorem State.hvBit_setInputs {s : State} {u : Vec} {rest : List Input} :
    (s.setInputs rest).hvBit u = s.hvBit u :=
  rfl

@[simp] theorem State.hvBit_setOpt {s : State} {u v : Vec} {w : Half} : (s.setOpt v w).hvBit u = s.hvBit u := rfl

@[simp] theorem State.hvBit_setRdata {s : State} {u : Vec} {x : DWord} : (s.setRdata x).hvBit u = s.hvBit u := rfl

@[simp] theorem State.hvBit_setIdtr {s : State} {u : Vec} {r : Idtr} : (s.setIdtr r).hvBit u = s.hvBit u := rfl

@[simp] theorem State.hvBit_markPublished {s : State} {u : Vec} : s.markPublished.hvBit u = s.hvBit u := rfl

@[simp] theorem State.hvBit_abort {s : State} {u : Vec} {c : AbortCode} : (s.abort c).hvBit u = s.hvBit u := rfl

@[simp] theorem State.tblByte_setHv {s : State} {i : Nat} {v : Vec} {b : Bool} :
    (s.setHv v b).tblByte i = s.tblByte i :=
  rfl

@[simp] theorem State.tblByte_setRdata {s : State} {i : Nat} {x : DWord} : (s.setRdata x).tblByte i = s.tblByte i :=
  rfl

@[simp] theorem State.tblByte_setIdtr {s : State} {i : Nat} {r : Idtr} : (s.setIdtr r).tblByte i = s.tblByte i := rfl

@[simp] theorem State.tblByte_markPublished {s : State} {i : Nat} : s.markPublished.tblByte i = s.tblByte i := rfl

@[simp] theorem State.tblByte_abort {s : State} {i : Nat} {c : AbortCode} : (s.abort c).tblByte i = s.tblByte i := rfl

/-- Storing what a slot holds changes nothing. -/
theorem State.setEnt_ent {s : State} {v : Vec} (h : s.tableCanonical) : s.setEnt v (s.ent v) = s := by
  have e : (s.setEnt v (s.ent v)).tbl = s.tbl :=
    tbl_eq_of_ent h (State.setEnt_canonical h) fun u => by
      rw [State.ent_setEnt h]
      split
      · subst u; rfl
      · rfl
  show { s with tbl := (s.setEnt v (s.ent v)).tbl } = s
  rw [e]

/-- Storing a handler-valid bit that the slot has changes nothing. -/
theorem State.setHv_hvBit {s : State} {v : Vec} : s.setHv v (s.hvBit v) = s := by
  have e : (s.setHv v (s.hvBit v)).hv = s.hv := by
    apply BitVec.eq_of_getLsbD_eq
    intro i hi
    have h := State.hvBit_setHv (s := s) (u := BitVec.ofNat 8 i) (v := v) (b := s.hvBit v)
    have hn : (BitVec.ofNat 8 i).toNat = i := by
      rw [BitVec.toNat_ofNat]
      omega
    unfold State.hvBit at h
    rw [hn] at h
    rw [show (s.setHv v (s.hvBit v)).hv.getLsbD i = _ from h]
    split
    · rename_i hv
      rw [← hv, hn]
    · rfl
  show { s with hv := (s.setHv v (s.hvBit v)).hv } = s
  rw [e]

/-- The slot after its option word is replaced (R134). -/
theorem State.ent_setOpt {s : State} {u v : Vec} {w : Half} (h : s.tableCanonical) :
    (s.setOpt v w).ent u = if u = v then entWithOpt (s.ent v) w else s.ent u :=
  State.ent_setEnt h

/-! ### Install (R141) -/

theorem State.install_canonical {s : State} {v : Vec} {a : Word} (h : s.tableCanonical) :
    (s.install v a).tableCanonical :=
  State.setEnt_canonical h

theorem State.ent_install {s : State} {u v : Vec} {a : Word} (h : s.tableCanonical) :
    (s.install v a).ent u =
      if u = v then packEntry (addrMid a) installedOpt s.csIn (addrLow a) else s.ent u :=
  State.ent_setEnt h

theorem State.hvBit_install {s : State} {u v : Vec} {a : Word} :
    (s.install v a).hvBit u = if u = v then true else s.hvBit u :=
  State.hvBit_setHv

/-! ### The system address space -/

/-- Slot v seen from its system address (R51). -/
theorem windowIndex_slotAddress (v : Vec) : windowIndex (slotAddress v) 8 = some (slotIndex v) := by
  have hb := idtBase_le
  have hv := v.isLt
  have e : (slotAddress v - Config.idtBase).toNat = slotIndex v := by
    simp only [slotAddress, slotIndex, BitVec.toNat_sub, BitVec.toNat_add, BitVec.toNat_ofNat] at *
    omega
  unfold windowIndex
  rw [e, if_pos (slotIndex_le v)]

/-! ### Reset -/

theorem State.ent_reset (v : Vec) : State.reset.ent v = defaultEntry := by
  have h : ∀ k, Memory.read [] k = resetByte k := fun _ => rfl
  have hv : ∀ k, resetByte (slotIndex v + k) = resetByte k := fun k => by
    have : (slotIndex v + k) % 8 = k % 8 := by unfold slotIndex; omega
    simp only [resetByte, this]
  have e : Memory.readLE [] (slotIndex v) 8 = Memory.readLE [] 0 8 := by
    simp only [Memory.readLE, h, Nat.add_assoc, hv, Nat.zero_add]
    rw [show resetByte (slotIndex v) = resetByte 0 from hv 0]
  show BitVec.ofNat 64 (Memory.readLE [] (slotIndex v) 8) = defaultEntry
  rw [e]
  decide

/-- After a reset every slot is the default entry (R240). -/
theorem State.ent_resetBlock {s : State} (v : Vec) : s.resetBlock.ent v = defaultEntry := State.ent_reset v

theorem State.reset_canonical : State.reset.tableCanonical := rfl

end Sys2Proof.Machine
end

