-- ==== Sys2Proof/Laws/Pipeline.lean ====
section
/-! SUPPORT. What the shared pipeline can do (spec/40_command_execution.md R121, R122), said once: a command is
discarded, or aborts with a code, or passes every check and performs its own writes. -/

namespace Sys2Proof.Machine

/-! ### Checks -/

@[simp] theorem firstFailing_nil : firstFailing [] = none := rfl

@[simp] theorem firstFailing_some (c : AbortCode) (cs : List (Option AbortCode)) : firstFailing (some c :: cs) = some c :=
  rfl

@[simp] theorem firstFailing_none (cs : List (Option AbortCode)) : firstFailing (none :: cs) = firstFailing cs := rfl

/-- No check fails exactly when each passes. -/
theorem firstFailing_eq_none {cs : List (Option AbortCode)} : firstFailing cs = none ↔ ∀ c ∈ cs, c = none := by
  induction cs with
  | nil => simp
  | cons c cs ih => cases c <;> simp [ih]

theorem require_eq_none {b : Bool} {c : AbortCode} : require b c = none ↔ b = true := by
  cases b <;> simp [require]

theorem checkLive_eq_none {s : State} : checkLive s = none ↔ s.ifIn = false := by
  simp [checkLive, require_eq_none]

theorem checkPrivilege_eq_none {s : State} : checkPrivilege s = none ↔ s.cplIn = 0 := by
  simp [checkPrivilege, require_eq_none]

theorem checkUnpublished_eq_none {s : State} : checkUnpublished s = none ↔ s.published = false := by
  simp [checkUnpublished, require_eq_none]

theorem checkLoadWindow_eq_none {s : State} : checkLoadWindow s = none ↔ s.ifIn = false := by
  simp [checkLoadWindow, require_eq_none]

theorem checkKind_eq_none {k : HandlerKind} {v : Vec} : checkKind k v = none ↔ kindOf v = some k := by
  unfold checkKind
  split <;> simp [*]

theorem checkHandler_eq_none {s : State} {v : Vec} {b : Bool} :
    checkHandler s v b = none ↔ (b = true → s.hvBit v = true) := by
  cases b <;> simp [checkHandler, require_eq_none]

theorem require_true {b : Bool} {c : AbortCode} (h : b = true) : require b c = none := by
  simp [require, h]

theorem require_false {b : Bool} {c : AbortCode} (h : b = false) : require b c = some c := by
  simp [require, h]

theorem checkLive_pass {s : State} (h : s.ifIn = false) : checkLive s = none := checkLive_eq_none.mpr h

theorem checkLive_fail {s : State} (h : s.ifIn = true) : checkLive s = some .liveMutation :=
  require_false (by simp [h])

theorem checkPrivilege_pass {s : State} (h : s.cplIn = 0) : checkPrivilege s = none := checkPrivilege_eq_none.mpr h

theorem checkPrivilege_fail {s : State} (h : s.cplIn ≠ 0) : checkPrivilege s = some .privilege :=
  require_false (decide_eq_false h)

theorem checkUnpublished_pass {s : State} (h : s.published = false) : checkUnpublished s = none :=
  checkUnpublished_eq_none.mpr h

theorem checkUnpublished_fail {s : State} (h : s.published = true) : checkUnpublished s = some .alreadyPublished :=
  require_false (by simp [h])

theorem checkLoadWindow_pass {s : State} (h : s.ifIn = false) : checkLoadWindow s = none :=
  checkLoadWindow_eq_none.mpr h

theorem checkLoadWindow_fail {s : State} (h : s.ifIn = true) : checkLoadWindow s = some .ifSetAtLoad :=
  require_false (by simp [h])

theorem checkKind_pass {k : HandlerKind} {v : Vec} (h : kindOf v = some k) : checkKind k v = none :=
  checkKind_eq_none.mpr h

theorem checkKind_fail {k : HandlerKind} {v : Vec} (h : kindOf v ≠ some k) : checkKind k v = some .kindMismatch :=
  if_neg h

theorem checkHandler_pass {s : State} {v : Vec} {b : Bool} (h : b = true → s.hvBit v = true) :
    checkHandler s v b = none :=
  checkHandler_eq_none.mpr h

theorem checkHandler_fail {s : State} {v : Vec} (h : s.hvBit v = false) :
    checkHandler s v true = some .presentWithoutHandler :=
  require_false (by simp [h])

theorem checkAuxBit_pass {aux : Half} (h : aux.toNat < 2) : checkAuxBit aux = none :=
  require_true ((auxBitOnly_iff aux).mpr (by simp [auxIsBit, h]))

theorem checkAuxBit_fail {aux : Half} (h : 2 ≤ aux.toNat) : checkAuxBit aux = some .illegalCommand :=
  require_false (by rw [← Bool.not_eq_true, auxBitOnly_iff]; simp [auxIsBit]; omega)

theorem checkAuxPair_pass {aux : Half} (h : aux.toNat < 4) : checkAuxPair aux = none :=
  require_true ((auxPairOnly_iff aux).mpr (by simp [auxIsPair, h]))

theorem checkAuxPair_fail {aux : Half} (h : 4 ≤ aux.toNat) : checkAuxPair aux = some .illegalCommand :=
  require_false (by rw [← Bool.not_eq_true, auxPairOnly_iff]; simp [auxIsPair]; omega)

/-! ### The pipeline -/

/-- Everything one command can do. -/
theorem runCommand_cases {s t u : State} {cs : List (Option AbortCode)} (h : runCommand s cs t = .next u) :
    (s.aborted = true ∧ u = s) ∨
      (s.aborted = false ∧ ∃ c, firstFailing cs = some c ∧ u = s.abort c) ∨
      (s.aborted = false ∧ firstFailing cs = none ∧ u = t) := by
  unfold runCommand at h
  cases ha : s.aborted with
  | true =>
    rw [ha, if_pos rfl] at h
    cases h
    exact .inl ⟨rfl, rfl⟩
  | false =>
    rw [ha, if_neg Bool.false_ne_true] at h
    cases hc : firstFailing cs with
    | some c =>
      rw [hc] at h
      cases h
      exact .inr (.inl ⟨rfl, c, rfl, rfl⟩)
    | none =>
      rw [hc] at h
      cases h
      exact .inr (.inr ⟨rfl, rfl, rfl⟩)

theorem runCommand_aborted {s t : State} {cs : List (Option AbortCode)} (h : s.aborted = true) :
    runCommand s cs t = .next s := by
  simp [runCommand, h]

theorem runCommand_done {s t : State} {cs : List (Option AbortCode)} (h : s.aborted = false)
    (hc : firstFailing cs = none) : runCommand s cs t = .next t := by
  simp [runCommand, h, hc]

theorem runCommand_fails {s t : State} {cs : List (Option AbortCode)} {c : AbortCode} (h : s.aborted = false)
    (hc : firstFailing cs = some c) : runCommand s cs t = .next (s.abort c) := by
  simp [runCommand, h, hc]

/-- A command whose checks all pass, and the state its own writes leave (R140 to R171). -/
def Done (s t : State) : Instr → Prop
  | .clr p v => checkPath p v = none ∧ s.ifIn = false ∧ t = (s.setEnt v defaultEntry).setHv v false
  | .setAddr p v a => checkPath p v = none ∧ s.ifIn = false ∧ t = s.install v a
  | .setFn p k v a => checkPath p v = none ∧ kindOf v = some k ∧ s.ifIn = false ∧ t = s.install v a
  | .setOpt p v w => checkPath p v = none ∧ s.ifIn = false ∧ optLegal w = true ∧
      (optPresent w = true → s.hvBit v = true) ∧ t = s.setOpt v w
  | .setTrap p v aux => auxBitOnly aux = true ∧ checkPath p v = none ∧ s.ifIn = false ∧
      t = s.setOpt v (optSetTrap (s.opt v) (auxBit aux))
  | .setDpl p v aux => auxPairOnly aux = true ∧ checkPath p v = none ∧ s.ifIn = false ∧
      t = s.setOpt v (optSetDpl (s.opt v) (auxPair aux))
  | .setPres p v aux => auxBitOnly aux = true ∧ checkPath p v = none ∧ s.ifIn = false ∧
      (auxBit aux = true → s.hvBit v = true) ∧ t = s.setOpt v (optSetPresent (s.opt v) (auxBit aux))
  | .getEnt p v => checkPath p v = none ∧ t = s.setRdata (s.ent v)
  | .getAddr p v => checkPath p v = none ∧ t = s.setRdata (zext64 (entAddress (s.ent v)))
  | .getOpt p v => checkPath p v = none ∧ t = s.setRdata (zext64 (s.opt v))
  | .getTrap p v => checkPath p v = none ∧ t = s.setRdata (zext64 (BitVec.ofBool (optTrap (s.opt v))))
  | .getDpl p v => checkPath p v = none ∧ t = s.setRdata (zext64 (optDpl (s.opt v)))
  | .getPres p v => checkPath p v = none ∧ t = s.setRdata (zext64 (BitVec.ofBool (optPresent (s.opt v))))
  | .lidt limit base => s.cplIn = 0 ∧ s.published = false ∧ s.ifIn = false ∧
      t = s.setIdtr { limit := limit, base := base }
  | .publish => s.cplIn = 0 ∧ s.published = false ∧ s.ifIn = false ∧ t = (s.setIdtr publishedIdtr).markPublished

/-- Everything a command can do, by instruction. -/
theorem exec_cases {i : Instr} {s t : State} (h : exec i s = .next t) :
    (s.aborted = true ∧ t = s) ∨ (s.aborted = false ∧ ∃ c, t = s.abort c) ∨ (s.aborted = false ∧ Done s t i) := by
  cases i
  all_goals
    rcases runCommand_cases h with h1 | ⟨h1, c, _, h2⟩ | ⟨h1, h2, h3⟩
    · exact .inl h1
    · exact .inr (.inl ⟨h1, c, h2⟩)
    · refine .inr (.inr ⟨h1, ?_⟩)
      simp only [firstFailing_eq_none, List.forall_mem_cons, checkLive_eq_none, checkKind_eq_none,
        checkHandler_eq_none, checkAuxBit, checkAuxPair, checkMustBeOne, checkReservedBits, checkPrivilege_eq_none,
        checkUnpublished_eq_none, checkLoadWindow_eq_none, require_eq_none] at h2
      simp only [Done, optLegal, Bool.and_eq_true]
      tauto

end Sys2Proof.Machine
end

