-- ==== Sys2Proof/Laws/Step.lean ====
section
/-! SUPPORT. What one presented word and one step can do, said once, and what a performed command keeps. -/

namespace Sys2Proof.Machine

/-- Everything a presented word can do (R121, R122). -/
theorem presentWord_cases {w : DWord} {s t : State} (h : presentWord w s = .next t) :
    (s.aborted = true ∧ t = s) ∨ (s.aborted = false ∧ ∃ c, t = s.abort c) ∨
      (s.aborted = false ∧ ∃ i, decode w = .ok i ∧ Done s t i) := by
  unfold presentWord at h
  split at h
  · rcases runCommand_cases h with h1 | ⟨h1, c, _, h2⟩ | ⟨_, h2, _⟩
    · exact .inl h1
    · exact .inr (.inl ⟨h1, c, h2⟩)
    · cases h2
  · rcases exec_cases h with h1 | h1 | ⟨h1, h2⟩
    · exact .inl h1
    · exact .inr (.inl h1)
    · exact .inr (.inr ⟨h1, _, ‹_›, h2⟩)

/-! ### What a performed command keeps -/

theorem Done.aborted {i : Instr} {s t : State} (h : Done s t i) : t.aborted = s.aborted := by
  cases i <;> simp only [Done] at h <;> simp [h]

theorem Done.err {i : Instr} {s t : State} (h : Done s t i) : t.err = s.err := by
  cases i <;> simp only [Done] at h <;> simp [h]

/-- No command touches the CPU's inputs or the records of the ports. -/
theorem Done.ports {i : Instr} {s t : State} (h : Done s t i) : SamePorts s t := by
  cases i <;> simp only [Done] at h <;> simp [h, SamePorts]

/-- A command changes no slot but the one it names (R55). -/
theorem Done.ent_other {i : Instr} {s t : State} {u : Vec} (h : Done s t i) (hs : s.tableCanonical)
    (hu : ∀ p, i.slot? ≠ some (p, u)) : t.ent u = s.ent u := by
  have ne : ∀ {v : Vec} {p : Path}, i.slot? = some (p, v) → u ≠ v := fun hv e => hu _ (e ▸ hv)
  cases i <;> simp only [Done] at h
  all_goals first
    | (have hv := ne rfl; simp [h, State.install, State.setOpt, State.ent_setEnt_other hs hv])
    | (simp only [h]; rfl)

/-- A command keeps the canonical form of the table. -/
theorem Done.canonical {i : Instr} {s t : State} (h : Done s t i) (hs : s.tableCanonical) : t.tableCanonical := by
  cases i <;> simp only [Done] at h
  all_goals first
    | (have e : t.tbl = s.tbl := by simp [h]
       exact (congrArg Memory.wf e).trans hs)
    | (rw [h.2.2]; exact State.setEnt_canonical hs)
    | (rw [h.2.2.2]; exact State.setEnt_canonical hs)
    | (rw [h.2.2.2.2]; exact State.setEnt_canonical hs)

/-! ### Steps -/

/-- The block's own state is as before. -/
def SameBlock (s t : State) : Prop :=
  t.tbl = s.tbl ∧ t.hv = s.hv ∧ t.idtr = s.idtr ∧ t.published = s.published ∧ t.aborted = s.aborted ∧
    t.err = s.err ∧ t.rdata = s.rdata

/-- Everything a step can do to the block: nothing, what the next presented word does, or a reset. -/
theorem step_cases {s t : State} (h : step s = .next t) :
    (SameBlock s t ∧ ∃ k, t.inputs = s.inputs.drop k) ∨
      (∃ w rest, s.inputs = .command w :: rest ∧ presentWord w (s.setInputs rest) = .next t) ∨
      (∃ rest, s.inputs = .reset :: rest ∧ t = (s.setInputs rest).resetBlock) := by
  have same : ∀ {x y : State}, x = y → SameBlock y x := fun e => by subst e; exact ⟨rfl, rfl, rfl, rfl, rfl, rfl, rfl⟩
  unfold step serveNext at h
  cases hi : s.inputs with
  | nil =>
    rw [hi] at h
    cases h
    exact .inl ⟨same rfl, 0, hi⟩
  | cons x rest =>
    rw [hi] at h
    have left : ∀ {P : Prop}, SameBlock s t → t.inputs = rest →
        (SameBlock s t ∧ ∃ k, t.inputs = (x :: rest).drop k) ∨ P :=
      fun h1 h2 => .inl ⟨h1, 1, by rw [h2]; rfl⟩
    cases x with
    | command w => exact .inr (.inl ⟨w, rest, rfl, h⟩)
    | gateRead g =>
      simp only [serve, serveGateRead] at h
      cases h
      exact left ⟨rfl, rfl, rfl, rfl, rfl, rfl, rfl⟩ rfl
    | trap q =>
      simp only [serve, takeTrap] at h
      repeat' split at h
      all_goals cases h
      all_goals exact left ⟨rfl, rfl, rfl, rfl, rfl, rfl, rfl⟩ rfl
    | trapReturn =>
      simp only [serve, returnFromTrap] at h
      repeat' split at h
      all_goals cases h
      all_goals exact left ⟨rfl, rfl, rfl, rfl, rfl, rfl, rfl⟩ rfl
    | pins cs cpl f =>
      simp only [serve] at h
      cases h
      exact left ⟨rfl, rfl, rfl, rfl, rfl, rfl, rfl⟩ rfl
    | foreignStore a b =>
      simp only [serve, storeFromOutside] at h
      split at h
      · cases h
      · cases h
        exact left ⟨rfl, rfl, rfl, rfl, rfl, rfl, rfl⟩ rfl
    | reset =>
      simp only [serve] at h
      cases h
      exact .inr (.inr ⟨rest, rfl, rfl⟩)

/-- A slot reads as before where the table is the same. -/
theorem SameBlock.ent {s t : State} (h : SameBlock s t) (v : Vec) : t.ent v = s.ent v := by
  unfold State.ent
  rw [h.1]

end Sys2Proof.Machine
end

