-- ==== Sys2Proof/Laws/Run.lean ====
section
/-! SUPPORT. The laws of a run's end (spec/70_reset_and_hazards.md R251). -/

namespace Sys2Proof.Machine

/-! ### Running the core -/

@[simp] theorem run_zero (s : State) : Host.Core.run core 0 s = .next s := rfl

/-- A step that answers, then the rest of the run. -/
theorem run_succ {k : Nat} {s t : State} (h : step s = .next t) :
    Host.Core.run core (k + 1) s = Host.Core.run core k t := by
  have h' : core.step s = .next t := h
  simp only [Host.Core.run, h']

/-! ### The end -/

/-- The run is over exactly when every waiting input is something else than a command. -/
theorem State.ended_iff {s : State} : s.ended = true ↔ ∀ x ∈ s.inputs, x.isCommand = false := by
  simp [State.ended]

@[simp] theorem stepsToEnd_nil : stepsToEnd [] = 0 := rfl

theorem stepsToEnd_ended {xs : List Input} (h : xs.any Input.isCommand = false) : stepsToEnd xs = 0 := by
  cases xs with
  | nil => rfl
  | cons x rest => rw [stepsToEnd, h]; rfl

theorem stepsToEnd_cons {x : Input} {rest : List Input} (h : (x :: rest).any Input.isCommand = true) :
    stepsToEnd (x :: rest) = stepsToEnd rest + 1 := by
  rw [stepsToEnd, h]
  rfl

/-- No step is needed exactly at the end. -/
theorem stepsToEnd_eq_zero {s : State} : stepsToEnd s.inputs = 0 ↔ s.ended = true := by
  unfold State.ended
  cases hs : s.inputs with
  | nil => simp
  | cons x rest =>
    cases h : (x :: rest).any Input.isCommand
    · simp [stepsToEnd_ended h]
    · simp [stepsToEnd_cons h]

/-- An ended run stays where it is. -/
theorem runToEnd_ended {s : State} (h : s.ended = true) : runToEnd s = .next s := by
  unfold runToEnd
  rw [stepsToEnd_eq_zero.mpr h]
  rfl

/-- A run that is not over goes on by one step. -/
theorem runToEnd_step {s t : State} {x : Input} {rest : List Input} (hi : s.inputs = x :: rest)
    (he : s.ended = false) (h : step s = .next t) (ht : t.inputs = rest) : runToEnd s = runToEnd t := by
  have ha : (x :: rest).any Input.isCommand = true := by
    unfold State.ended at he
    rw [hi] at he
    cases hb : (x :: rest).any Input.isCommand
    · rw [hb] at he; cases he
    · rfl
  unfold runToEnd
  rw [hi, stepsToEnd_cons ha, run_succ h, ht]

/-! ### The outcome -/

/-- The outcome is exactly the block's own state. -/
theorem outcome_eq_iff {s t : State} : t.outcome = s.outcome ↔ SameBlock s t := by
  unfold State.outcome SameBlock
  simp only [RunOutcome.mk.injEq]

end Sys2Proof.Machine
end

