-- ==== Sys2Proof/Laws/Trap.lean ====
section
/-! SUPPORT. What a gate read, a trap and a return can do, said once (spec/43_table_access.md R163,
spec/60_exceptions.md R205 to R213). -/

namespace Sys2Proof.Machine

/-- The index a gate read computes, as a number: both computations wrap modulo 2^32 (R132). -/
theorem gateIndex_toNat (s : State) (g : Vec) :
    (s.idtr.base + BitVec.ofNat 32 (8 * g.toNat) - Config.idtBase).toNat =
      (s.idtr.base.toNat + 8 * g.toNat + 2 ^ 32 - Config.idtBase.toNat) % 2 ^ 32 := by
  have hb := Config.idtBase.isLt
  have hg := g.isLt
  rw [BitVec.toNat_sub, BitVec.toNat_add, BitVec.toNat_ofNat]
  omega

/-- A gate read depends on IDTR and the table alone (R163). -/
theorem gateRead_congr {s t : State} {g : Vec} (hi : t.idtr = s.idtr) (ht : t.tbl = s.tbl) :
    gateRead t g = gateRead s g := by
  unfold gateRead State.ent
  rw [hi, ht]

/-- A gate read that serves an entry serves one slot, within the limit. -/
theorem gateRead_entry {s : State} {g : Vec} {e : DWord} (h : gateRead s g = .entry e) :
    8 * g.toNat + 7 ≤ s.idtr.limit.toNat ∧ ∃ v : Vec, e = s.ent v := by
  unfold gateRead at h
  split at h
  · cases h
  · dsimp only at h
    split at h
    · cases h
      exact ⟨by omega, _, rfl⟩
    · cases h

/-- Everything a trap that does not stop can do: a masked device interrupt is not taken, or control goes through a
usable gate. -/
theorem takeTrap_cases {t : TrapRequest} {s u : State} (h : takeTrap t s = .next u) :
    (t.cause = .device ∧ s.ifIn = false ∧ u = s) ∨
      (∃ e, s.published = true ∧ gateRead s t.vec = .entry e ∧ gateProblem t e s = none ∧ u = enterHandler t e s) := by
  unfold takeTrap at h
  split at h
  · rename_i hc
    cases h
    exact .inl ⟨hc.1, hc.2, rfl⟩
  split at h
  · cases h
  rename_i hp
  split at h
  · cases h
  · cases h
  · rename_i e he
    split at h
    · cases h
    · rename_i hg
      cases h
      exact .inr ⟨e, by simpa using hp, he, hg, rfl⟩

/-- Which gates are usable (R212, R213, I20). -/
theorem gateProblem_eq_none {t : TrapRequest} {e : DWord} {s : State} :
    gateProblem t e s = none ↔
      (decodeGate e).present = true ∧ ¬ (t.cause = .software ∧ (decodeGate e).dpl < s.cplIn) ∧
        kindOf t.vec ≠ none ∧ t.handler = kindOf t.vec := by
  unfold gateProblem
  cases (decodeGate e).present
  · simp
  · by_cases h1 : t.cause = .software ∧ (decodeGate e).dpl < s.cplIn
    · simp [h1]
    · by_cases h2 : kindOf t.vec = none ∨ t.handler ≠ kindOf t.vec
      · simp only [Bool.not_true, Bool.false_eq_true, if_false, if_neg h1, if_pos h2]
        simp only [reduceCtorEq, false_iff]
        tauto
      · simp only [Bool.not_true, Bool.false_eq_true, if_false, if_neg h1, if_neg h2]
        simp only [true_iff]
        tauto

/-- Everything a return that does not stop can do. -/
theorem returnFromTrap_cases {s u : State} (h : returnFromTrap s = .next u) :
    ∃ f rest, s.active = f :: rest ∧ handlerReturns f.vec = true ∧
      u = { s with csIn := f.cs, cplIn := f.cpl, ifIn := f.ifFlag, cpuTarget := some f.ip, cpuFlags := some f.flags,
                   active := rest } := by
  unfold returnFromTrap at h
  split at h
  · cases h
  · rename_i f rest hf
    split at h
    · rename_i hr
      cases h
      exact ⟨f, rest, hf, hr, rfl⟩
    · cases h

end Sys2Proof.Machine
end

