-- ==== Sys2Proof/Tests/Slice0.lean ====
section
/-! SUPPORT. Tests: ill-formed terms, decoding of words written out in spec/95_test_vectors.md, one step per command
with the results of that file, and for every statement with hypotheses a witness that meets them. -/

open Sys2Proof Sys2Proof.Machine

namespace Sys2Proof.Tests

/-! ### WellFormed smoke: terms no legal word carries (R92) -/

theorem test_illFormed_setTrap : (Instr.setTrap .indexed 32 2).wellFormed = false := by decide

theorem test_illFormed_setPres : (Instr.setPres .named 3 0x8000).wellFormed = false := by decide

theorem test_illFormed_setDpl : (Instr.setDpl .indexed 32 4).wellFormed = false := by decide

theorem test_wellFormed_boundaries :
    (Instr.setTrap .indexed 32 1).wellFormed = true ∧ (Instr.setPres .indexed 32 1).wellFormed = true ∧
      (Instr.setDpl .indexed 32 3).wellFormed = true := by decide

/-! ### Decoding: the words of 95_test_vectors.md 2.1 -/

theorem test_decode_clr : decode 0x1020000000000000 = .ok (.clr .indexed 32) := by decide

theorem test_decode_setAddr : decode 0x2020000000100E00 = .ok (.setAddr .indexed 32 0x00100E00) := by decide

theorem test_decode_setFn :
    decode 0x3A0E000000100B40 = .ok (.setFn .named .withErrorCode 14 0x00100B40) ∧
      decode 0x3803000000100A00 = .ok (.setFn .named .plain 3 0x00100A00) ∧
      decode 0x3E08000000100C80 = .ok (.setFn .named .divergingWithErrorCode 8 0x00100C80) ∧
      decode 0x3C12000000100A00 = .ok (.setFn .named .diverging 18 0x00100A00) := by decide

theorem test_decode_setOpt : decode 0x4080EF0000000000 = .ok (.setOpt .indexed 128 0xEF00) := by decide

theorem test_decode_setTrap : decode 0x5080000100000000 = .ok (.setTrap .indexed 128 1) := by decide

theorem test_decode_setDpl : decode 0x6080000300000000 = .ok (.setDpl .indexed 128 3) := by decide

theorem test_decode_setPres :
    decode 0x7080000000000000 = .ok (.setPres .indexed 128 0) ∧
      decode 0x7080000100000000 = .ok (.setPres .indexed 128 1) := by decide

theorem test_decode_getEnt : decode 0x8080000000000000 = .ok (.getEnt .indexed 128) := by decide

theorem test_decode_getAddr : decode 0x9080000000000000 = .ok (.getAddr .indexed 128) := by decide

theorem test_decode_getOpt : decode 0xA080000000000000 = .ok (.getOpt .indexed 128) := by decide

theorem test_decode_getTrap : decode 0xB080000000000000 = .ok (.getTrap .indexed 128) := by decide

theorem test_decode_getDpl : decode 0xC080000000000000 = .ok (.getDpl .indexed 128) := by decide

theorem test_decode_getPres :
    decode 0xD080000000000000 = .ok (.getPres .indexed 128) ∧
      decode 0xD80E000000000000 = .ok (.getPres .named 14) := by decide

theorem test_decode_lidt : decode 0xE00007FF00104000 = .ok (.lidt 0x07FF 0x00104000) := by decide

theorem test_decode_publish : decode 0xF000000000000000 = .ok .publish := by decide

/-- The illegal words of 2.2 with OP or R wrong. -/
theorem test_decode_illegal_fixed :
    decode 0x0000000000000000 = .error .opZero ∧ decode 0x0FFFFFFFFFFFFFFF = .error .opZero ∧
      decode 0x2120000000001000 = .error .reservedBit := by decide

/-- The illegal words of 2.2 with an unused field set. -/
theorem test_decode_illegal_unused :
    [0x1020000000000001, 0x1220000000000000, 0x5020000200000000, 0x6020000400000000, 0x7020000200000000,
      0x40208E0000000001, 0x2020000100001000, 0x8020000000000001, 0xF800000000000000, 0xF000000000000001,
      0xE00107FF00104000, 0xE80007FF00104000].map decode = List.replicate 12 (.error .unusedField) := by decide

theorem test_decodeTableWord :
    decodeTableWord 64 0x6080000300000000 = some (.setDpl .indexed 128 3) ∧ decodeTableWord 64 0 = none := by decide

/-- The disassembly column of 2.1 and 2.2. -/
theorem test_disassemble :
    disassemble 0xF000000000000000 = "PUBLISH".toList ∧
      disassemble 0x3A0E000000100B40 = "SETFN.N 14, ERR, 0x00100B40".toList ∧
      disassemble 0x6080000300000000 = "SETDPL.I 128, 3".toList ∧
      disassemble 0x40208E0000000001 = ".illegal 0x40208E0000000001".toList := by decide

/-- `USERGATE.I 128, 0x00102000` of program P2. -/
theorem test_assemble_userGate :
    assemble (.userGate .indexed 128 0x00102000) = some [0x2080000000102000, 0x6080000300000000] := by decide

/-! ### One step per command, from the states of 95_test_vectors.md -/

/-- A view of the next state; none where there is none. -/
def nextView {α : Type} (f : State → α) : Result → Option α
  | .next t => some (f t)
  | .fault _ => none
  | .refused _ => none

/-- The entry of a slot and STATUS after the word. -/
def entAfter (s : State) (w : Nat) (v : Vec) : Option (DWord × Half) :=
  nextView (fun t => (t.ent v, t.status)) (step (s.withFetchWord 64 w))

/-- RDATA and STATUS after the word. -/
def rdataAfter (s : State) (w : Nat) : Option (DWord × Half) :=
  nextView (fun t => (t.rdata, t.status)) (step (s.withFetchWord 64 w))

/-- Reset, and a handler at an address in a slot. -/
def withHandler (v : Vec) (a : Word) : State := State.reset.install v a

/-- The handler of 5.1 with T 1 and DPL 3. -/
def optioned : State := (withHandler 128 0xC0DE1234).setOpt 128 0xEF00

/-- Interrupts on. -/
def live (s : State) : State := { s with ifIn := true }

/-- At privilege level 3. -/
def ring3 (s : State) : State := { s with cplIn := 3 }

/-- 4.1: CLR after an installation. -/
theorem test_clr : entAfter (withHandler 32 0x12345678) 0x1020000000000000 32 = some (0x00000E0000000000, 0) := by
  decide

theorem test_clr_live : entAfter (live State.reset) 0x1020000000000000 32 = some (0x00000E0000000000, 0x800A) := by
  decide

/-- 4.1: the address split. -/
theorem test_setAddr : entAfter State.reset 0x20200000C0DE1234 32 = some (0xC0DE8E0000081234, 0) := by decide

/-- 4.1, corner case: the selector is copied. -/
theorem test_setAddr_selector :
    entAfter { State.reset with csIn := 0x001B } 0x2020000000100E00 32 = some (0x00108E00001B0E00, 0) := by decide

/-- 3.1: vector 8 with its kind, and with another. -/
theorem test_setFn : entAfter State.reset 0x3E08000000100A00 8 = some (0x00108E0000080A00, 0) := by decide

theorem test_setFn_kind : entAfter State.reset 0x3A08000000100A00 8 = some (0x00000E0000000000, 0x8006) := by decide

/-- 4.2: a legal word, and code 7 before 8. -/
theorem test_setOpt : entAfter (withHandler 40 0x00101000) 0x4028EF0000000000 40 = some (0x0010EF0000081000, 0) := by
  decide

theorem test_setOpt_order :
    entAfter (withHandler 40 0x00101000) 0x4028100000000000 40 = some (0x00108E0000081000, 0x8007) := by decide

/-- 5.3: T of an absent slot. -/
theorem test_setTrap : entAfter State.reset 0x5032000100000000 50 = some (0x00000F0000000000, 0) := by decide

/-- 3.2: the interrupts-disabled check. -/
theorem test_setTrap_live : entAfter (live State.reset) 0x5020000100000000 32 = some (0x00000E0000000000, 0x800A) := by
  decide

/-- 5.1, step 3. -/
theorem test_setDpl :
    entAfter ((withHandler 128 0xC0DE1234).setOpt 128 0x8F00) 0x6080000300000000 128 =
      some (0xC0DEEF0000081234, 0) := by decide

/-- 2.2: DPL 4 is an illegal word. -/
theorem test_setDpl_illegal : entAfter State.reset 0x6020000400000000 32 = some (0x00000E0000000000, 0x8001) := by
  decide

/-- 5.1, step 7. -/
theorem test_setPres : entAfter optioned 0x7080000000000000 128 = some (0xC0DE6F0000081234, 0) := by decide

/-- 5.3: no handler. -/
theorem test_setPres_noHandler : entAfter State.reset 0x7028000100000000 40 = some (0x00000E0000000000, 0x8009) := by
  decide

/-- 6 and 3.2: a read ignores `if_in`. -/
theorem test_getEnt : rdataAfter (live State.reset) 0x8020000000000000 = some (0x00000E0000000000, 0) := by decide

theorem test_getAddr : rdataAfter optioned 0x9080000000000000 = some (0xC0DE1234, 0) := by decide

theorem test_getOpt : rdataAfter optioned 0xA080000000000000 = some (0xEF00, 0) := by decide

theorem test_getTrap : rdataAfter optioned 0xB080000000000000 = some (1, 0) := by decide

theorem test_getDpl : rdataAfter optioned 0xC080000000000000 = some (3, 0) := by decide

theorem test_getPres : rdataAfter optioned 0xD080000000000000 = some (1, 0) := by decide

/-- 3: vectors 18 and 2. -/
theorem test_getPres_paths :
    rdataAfter State.reset 0xD012000000000000 = some (0, 0x8004) ∧
      rdataAfter State.reset 0xD802000000000000 = some (0, 0x8005) := by decide

/-- 7: LIDT, and its check order. -/
theorem test_lidt :
    nextView (fun t => (t.idtr, t.published, t.status)) (step (State.reset.withFetchWord 64 0xE00003FF00200000)) =
      some ({ limit := 0x03FF, base := 0x00200000 }, false, 0) := by decide

theorem test_lidt_order :
    nextView State.status
      (step ((live (ring3 (State.reset.markPublished))).withFetchWord 64 0xE00007FF00200000)) = some 0xC00B := by decide

/-- 7: PUBLISH, and republishing. -/
theorem test_publish :
    nextView (fun t => (t.idtr.limit, t.status)) (step (State.reset.withFetchWord 64 0xF000000000000000)) =
      some (0x07FF, 0x4000) := by decide

theorem test_publish_again :
    nextView State.status (step (State.reset.markPublished.withFetchWord 64 0xF000000000000000)) = some 0xC00C := by
  decide

/-- 8: a later command is discarded, an illegal word too. -/
theorem test_abort_sticky :
    rdataAfter (State.reset.abort .hasErrorCode) 0x8020000000000000 = some (0, 0x8003) ∧
      rdataAfter (State.reset.abort .hasErrorCode) 0x0000000000000000 = some (0, 0x8003) := by decide

/-- 4.1: the bytes of the slot, from the lowest address. -/
theorem test_bytes :
    (List.range 8).map (fun k => (withHandler 32 0xC0DE1234).tblByte (256 + k)) =
      [0x34, 0x12, 0x08, 0x00, 0x00, 0x8E, 0xDE, 0xC0] := by decide


/-! ### Witnesses: for every statement with hypotheses, states and operands that meet all of them together -/

/-- A published state with a handler in slot 32. -/
def wired : State := ((withHandler 32 0x00100E00).setIdtr publishedIdtr).markPublished

/-- The next thing presented. -/
def facing (s : State) (x : Input) : State := s.setInputs [x]

theorem wired_ent (v : Vec) : wired.ent v = if v = 32 then 0x00108E0000080E00 else defaultEntry := by
  show (withHandler 32 0x00100E00).ent v = _
  rw [withHandler, State.ent_install State.reset_canonical, State.ent_reset]
  split
  · decide
  · rfl

theorem wired_opt (v : Vec) : wired.opt v = if v = 32 then 0x8E00 else 0x0E00 := by
  unfold State.opt
  rw [wired_ent]
  split <;> decide

theorem wired_inv : wired.Inv where
  tableCanonical := by decide
  optionsLegal := fun v => by rw [wired_opt]; split <;> decide
  presentInstalled := fun v h => by
    rw [wired_opt] at h
    split at h
    · subst v; decide
    · exact absurd h (by decide)
  reservedAbsent := fun v h => by
    rw [wired_opt]
    split
    · subst v; exact absurd h (by decide)
    · decide
  publishedTable := fun _ => rfl
  errConsistent := by unfold State.errConsistent; decide

/-- Vectors at the ends of the ranges of R203's columns. -/
def servedVectors : List Vec := [0, 1, 2, 4, 5, 8, 14, 17, 19, 32, 255]

/-- Through a published IDTR these vectors read their slots. -/
theorem published_gateRead {s : State} {g : Vec} (hg : g ∈ servedVectors) (h : s.idtr = publishedIdtr) :
    gateRead s g = .entry (s.ent g) := by
  have hi : (s.idtr.base + BitVec.ofNat 32 (8 * g.toNat) - Config.idtBase).toNat = 8 * g.toNat := by
    have key : ∀ b n : Nat, b < 2 ^ 32 → n < 256 → (b + 8 * n + 2 ^ 32 - b) % 2 ^ 32 = 8 * n :=
      fun b n hb hn => by omega
    have hb : s.idtr.base = Config.idtBase := congrArg Idtr.base h
    rw [gateIndex_toNat, hb]
    exact key _ _ Config.idtBase.isLt g.isLt
  have hl : ¬ s.idtr.limit.toNat < 8 * g.toNat + 7 := by
    have hm : s.idtr.limit.toNat = 2047 := by rw [h]; rfl
    omega
  unfold gateRead
  rw [if_neg hl]
  simp only [hi]
  rw [if_pos (by have := g.isLt; omega)]
  have back : ∀ v ∈ servedVectors, BitVec.ofNat 8 (8 * v.toNat / 8) = v := by decide
  rw [back g hg]

theorem wired_gateRead {s : State} (hi : s.idtr = wired.idtr) (ht : s.tbl = wired.tbl) :
    gateRead s 32 = .entry 0x00108E0000080E00 := by
  rw [gateRead_congr hi ht, published_gateRead (by decide) rfl, wired_ent, if_pos rfl]

/-- An IDTR whose base lies `d` bytes above the table's. -/
def offset (d : Nat) : State :=
  State.reset.setIdtr { limit := 0x07FF, base := .ofNat 32 (Config.idtBase.toNat + d) }

theorem offset_index {d : Nat} (g : Vec) :
    (((offset d).idtr.base.toNat + 8 * g.toNat) % 2 ^ 32 + 2 ^ 32 - Config.idtBase.toNat) % 2 ^ 32 =
      (d + 8 * g.toNat) % 2 ^ 32 := by
  have e : (offset d).idtr.base.toNat = (Config.idtBase.toNat + d) % 2 ^ 32 := BitVec.toNat_ofNat _ _
  have key : ∀ b n : Nat, b ≤ 0xFFFFF800 → n < 256 →
      (((b + d) % 2 ^ 32 + 8 * n) % 2 ^ 32 + 2 ^ 32 - b) % 2 ^ 32 = (d + 8 * n) % 2 ^ 32 := fun b n h1 h2 => by omega
  rw [e]
  exact key _ _ idtBase_le g.isLt

theorem offset_notServed : gateRead (offset 4) 32 = .notServed := by
  have hi : ((offset 4).idtr.base + BitVec.ofNat 32 (8 * (32 : Vec).toNat) - Config.idtBase).toNat = 260 := by
    have h := offset_index (d := 4) 32
    have h8 : 8 * (32 : Vec).toNat = 256 := by decide
    rw [gateIndex_toNat]
    rw [h8] at h ⊢
    generalize (offset 4).idtr.base.toNat = x at h ⊢
    have hb := idtBase_le
    generalize Config.idtBase.toNat = b at h hb ⊢
    omega
  unfold gateRead
  rw [if_neg (by decide)]
  simp only [hi]
  rw [if_neg (by decide)]

/-- A device interrupt of vector 32 whose handler follows its kind. -/
def timer : TrapRequest :=
  { vec := 32, cause := .device, faultIp := 0x1000, nextIp := 0x1002, flags := 0x202, errorCode := 0,
    handler := some .plain }

/-- `INT 32` of a program. -/
def softTimer : TrapRequest := { timer with cause := .software }

theorem wired_takesTimer : takeTrap timer (live wired) = .next (enterHandler timer 0x00108E0000080E00 (live wired)) := by
  have hg : gateRead (live wired) timer.vec = .entry 0x00108E0000080E00 := wired_gateRead rfl rfl
  have hp : gateProblem timer 0x00108E0000080E00 (live wired) = none := by decide
  unfold takeTrap
  rw [if_neg (by decide), if_neg (by decide), hg]
  simp only [hp]

/-- An exception of a vector, with a handler of its kind. -/
def exceptionAt (v : Vec) : TrapRequest := { timer with vec := v, cause := .exception, handler := kindOf v }

/-- A published state with a handler in one slot. -/
def serving (v : Vec) : State := ((withHandler v 0x00100C80).setIdtr publishedIdtr).markPublished

theorem serving_gateRead {v : Vec} (hv : v ∈ servedVectors) :
    gateRead (serving v) v = .entry ((serving v).ent v) :=
  published_gateRead hv rfl

theorem serving_takes {v : Vec} (hv : v ∈ servedVectors) :
    takeTrap (exceptionAt v) (serving v) = .next (enterHandler (exceptionAt v) ((serving v).ent v) (serving v)) := by
  have hp : ∀ u ∈ servedVectors, gateProblem (exceptionAt u) ((serving u).ent u) (serving u) = none := by decide
  have hg : gateRead (serving v) (exceptionAt v).vec = .entry ((serving v).ent v) := serving_gateRead hv
  have hc : ¬ ((exceptionAt v).cause = .device ∧ (serving v).ifIn = false) := fun h => by cases h.1
  have hs : ¬ (serving v).published = false := fun h => by cases h
  unfold takeTrap
  rw [if_neg hc, if_neg hs, hg]
  simp only [hp v hv]

/-! Encoding -/

theorem witness_DecodeOfEncode :
    (Instr.setDpl .named 30 3).wellFormed = true ∧ (Instr.setTrap .indexed 255 1).wellFormed = true ∧
      (Instr.setPres .indexed 0 1).wellFormed = true ∧ (Instr.setOpt .named 8 0xFFFF).wellFormed = true := by decide

theorem witness_EncodeOfDecode : decode 0x68FF000300000000 = .ok (.setDpl .named 255 3) := by decide

theorem witness_LegalIffRowMatches :
    (∃ i, decode 0x70FF000100000000 = .ok i) ∧ Op.setPres.matchesWord 0x70FF000100000000 = true := by
  exact ⟨⟨_, rfl⟩, by decide⟩

theorem witness_RowsDoNotOverlap :
    Op.setFn.matchesWord 0x3EFF0000FFFFFFFF = true ∧ allOps.filter (·.matchesWord 0x3EFF0000FFFFFFFF) = [.setFn] := by
  decide

theorem witness_AssembledWordsDecode :
    (AsmLine.setDpl .named 255 3).inRange = true ∧ (AsmLine.setDpl .named 255 4).inRange = false ∧
      (AsmLine.clr .indexed 256).inRange = false ∧ (AsmLine.lidt 0xFFFF 0xFFFFFFFF).inRange = true ∧
      (lineRanges (.installN 255 .plain 0xFFFFFFFF) ∧ ¬ lineRanges (.installI 255 (2 ^ 32)) ∧
        lineRanges (.setDpl .named 255 3) ∧ ¬ lineRanges (.setTrap .indexed 0 2) ∧
        ¬ lineRanges (.setOpt .indexed 0 0x10000)) := by
  unfold lineRanges
  decide

theorem witness_LegalWordsPrintApart :
    decode 0xD0FF000000000000 = .ok (.getPres .indexed 255) ∧
      disassemble 0xD0FF000000000000 = disassemble 0xD0FF000000000000 := by
  exact ⟨by decide, rfl⟩

theorem witness_PseudoInstructionsInstallGates :
    (AsmLine.trapGate .indexed 255 0xFFFFFFFF).inRange = true ∧ State.reset.aborted = false ∧
      State.reset.tableCanonical ∧ checkPath .indexed (.ofNat 8 255) = none ∧ State.reset.ifIn = false := by decide

/-! The step and the abort -/

theorem witness_StepPerformsDecodedCommand :
    (facing State.reset (.command 0x1020000000000000)).inputs = [.command 0x1020000000000000] ∧
      decode 0x1020000000000000 = .ok (.clr .indexed 32) := by decide

theorem witness_PlacedWordRunsNext : decodeTableWord 64 0xF000000000000000 = some .publish := by decide

theorem witness_IllegalWordAborts :
    (facing State.reset (.command 0)).inputs = [.command 0] ∧ decode 0 = .error .opZero ∧
      (facing State.reset (.command 0)).aborted = false := by decide

/-- One word that aborts, one presented after an abort, and a reset. -/
theorem witness_AbortWritesOnlyItsCode :
    (presentWord 0 State.reset = .next (State.reset.abort .illegalCommand) ∧ State.reset.aborted = false ∧
      (State.reset.abort .illegalCommand).aborted = true) ∧
    presentWord 0xF000000000000000 (State.reset.abort .illegalCommand) =
      .next (State.reset.abort .illegalCommand) ∧
    nextView State.aborted (step (facing (State.reset.abort .illegalCommand) .reset)) = some false :=
  ⟨⟨rfl, rfl, rfl⟩, rfl, by decide⟩

theorem witness_AbortFreezesBlockUntilReset :
    (facing (State.reset.abort .hasErrorCode) (.command 0xF000000000000000)).aborted = true ∧
      Input.reset ∉ (facing (State.reset.abort .hasErrorCode) (.command 0xF000000000000000)).inputs ∧
      Host.Core.run core 2 (facing (State.reset.abort .hasErrorCode) (.command 0xF000000000000000)) =
        .next ((State.reset.abort .hasErrorCode).setInputs []) :=
  ⟨rfl, by decide, rfl⟩

/-- A vector of each failing set and of the passing one, at the ends of their ranges. -/
theorem witness_IndexedPathCodes :
    (∀ v : Vec, (Instr.getEnt .indexed v).slot? = some (.indexed, v)) ∧ State.reset.aborted = false ∧
      [9, 31].map (fun v => checkPath .indexed (.ofNat 8 v)) = List.replicate 2 (some .reservedVector) ∧
      [8, 30].map (fun v => checkPath .indexed (.ofNat 8 v)) = List.replicate 2 (some .hasErrorCode) ∧
      checkPath .indexed 18 = some .diverging ∧
      [0, 7, 16, 19, 32, 255].map (fun v => checkPath .indexed (.ofNat 8 v)) = List.replicate 6 none :=
  ⟨fun _ => rfl, by decide⟩

theorem witness_NamedPathCode :
    (∀ v : Vec, (Instr.getEnt .named v).slot? = some (.named, v)) ∧ State.reset.aborted = false ∧
      [2, 9, 31, 32, 255].map (fun v => checkPath .named (.ofNat 8 v)) = List.replicate 5 (some .notNamed) ∧
      [0, 1, 3, 19, 30].map (fun v => checkPath .named (.ofNat 8 v)) = List.replicate 5 none ∧
      ((30 : Vec).toNat, HandlerKind.withErrorCode) ∈ namedTable :=
  ⟨fun _ => rfl, by decide⟩

/-- A vector at each end of every range. -/
theorem witness_VectorClassification :
    [0, 7, 8, 9, 10, 14, 15, 16, 17, 18, 19, 20, 29, 30, 31, 32, 255].map (fun v => classOf (.ofNat 8 v)) =
      [.defined, .defined, .defined, .reserved, .defined, .defined, .reserved, .defined, .defined, .defined, .defined,
        .reserved, .reserved, .defined, .reserved, .device, .device] := by decide

theorem witness_MutationNeedsInterruptsOff :
    (Op.setFn.commandClass = .mutating ∧ checkPath .named 14 = none ∧ kindOf 14 = some .withErrorCode ∧
      (live State.reset).aborted = false ∧ (live State.reset).ifIn = true) ∧
    (Op.getOpt.commandClass = .reading ∧ exec (.getOpt .named 14) State.reset = .next (State.reset.setRdata 0x0E00)) ∧
    (Op.publish.commandClass = .idtrLoad ∧ (live State.reset).cplIn = 0 ∧ (live State.reset).published = false) :=
  ⟨by decide, ⟨by decide, rfl⟩, by decide⟩

theorem witness_OnlyLoadsReadPrivilege :
    (Op.lidt.commandClass = .idtrLoad ∧ (ring3 State.reset).aborted = false ∧ (ring3 State.reset).cplIn ≠ 0) ∧
      (Op.setAddr.commandClass ≠ .idtrLoad ∧
        exec (.setAddr .indexed 32 0x00100E00) State.reset = .next (withHandler 32 0x00100E00)) :=
  ⟨by decide, by decide, rfl⟩

/-! Entry and option commands: each clause, on a state with a handler in the slot -/

/-- What the entry-command statements ask of the state, and a vector and state for each clause: passing, path, live. -/
theorem witness_ClrResetsSlot :
    (withHandler 32 0x00100E00).aborted = false ∧ (withHandler 32 0x00100E00).tableCanonical ∧
      (checkPath .indexed 32 = none ∧ (withHandler 32 0x00100E00).ifIn = false) ∧
      checkPath .indexed 18 = some .diverging ∧ (live (withHandler 32 0x00100E00)).ifIn = true := by decide

theorem witness_SetAddrInstallsGate :
    State.reset.aborted = false ∧ State.reset.tableCanonical ∧
      (checkPath .named 30 = none ∧ State.reset.ifIn = false) ∧ checkPath .named 31 = some .notNamed ∧
      ((live State.reset).aborted = false ∧ (live State.reset).tableCanonical ∧ (live State.reset).ifIn = true) := by
  decide

theorem witness_SetFnInstallsMatchingKind :
    State.reset.aborted = false ∧ State.reset.tableCanonical ∧
      (checkPath .named 8 = none ∧ kindOf 8 = some .divergingWithErrorCode ∧ State.reset.ifIn = false) ∧
      checkPath .indexed 14 = some .hasErrorCode ∧
      (checkPath .named 18 = none ∧ kindOf 18 ≠ some .plain) ∧
      ((live State.reset).aborted = false ∧ (live State.reset).tableCanonical ∧ (live State.reset).ifIn = true) := by
  decide

/-- A present word on a slot with a handler, and an absent one on a slot without. -/
theorem witness_SetOptStoresLegalWord :
    (withHandler 40 0x00101000).aborted = false ∧ (withHandler 40 0x00101000).tableCanonical ∧
      checkPath .indexed 40 = none ∧ (withHandler 40 0x00101000).ifIn = false ∧
      ((0xEF00 : Half).extractLsb' 9 3 = 7#3 ∧ (0xEF00 : Half).getLsbD 12 = false ∧
        (0xEF00 : Half).extractLsb' 0 8 = 0#8 ∧ (withHandler 40 0x00101000).hvBit 40 = true) ∧
      ((0x6E00 : Half).getLsbD 15 = false ∧ (withHandler 40 0x00101000).hvBit 41 = false) := by decide

/-- A word for each refusal: 4.2's 0x0C00, 0x1E00, 0x8E01 and 0x8F00. -/
theorem witness_SetOptRefusesInOrder :
    State.reset.aborted = false ∧ checkPath .indexed 9 = some .reservedVector ∧
      (checkPath .indexed 40 = none ∧ (live State.reset).aborted = false ∧ (live State.reset).ifIn = true) ∧
      State.reset.ifIn = false ∧ (0x0C00 : Half).extractLsb' 9 3 ≠ 7#3 ∧
      ((0x1E00 : Half).extractLsb' 9 3 = 7#3 ∧ (0x1E00 : Half).getLsbD 12 = true) ∧
      ((0x8E01 : Half).extractLsb' 9 3 = 7#3 ∧ (0x8E01 : Half).extractLsb' 0 8 ≠ 0#8) ∧
      ((0x8F00 : Half).extractLsb' 9 3 = 7#3 ∧ (0x8F00 : Half).getLsbD 12 = false ∧
        (0x8F00 : Half).extractLsb' 0 8 = 0#8 ∧ (0x8F00 : Half).getLsbD 15 = true ∧
        State.reset.hvBit 40 = false) := by decide

theorem witness_SetTrapWritesT :
    State.reset.aborted = false ∧ State.reset.tableCanonical ∧
      ((1 : Half).toNat < 2 ∧ checkPath .indexed 50 = none ∧ State.reset.ifIn = false) ∧ 2 ≤ (2 : Half).toNat ∧
      checkPath .indexed 30 = some .hasErrorCode ∧
      ((live State.reset).aborted = false ∧ (live State.reset).tableCanonical ∧ (live State.reset).ifIn = true) := by
  decide

theorem witness_SetDplWritesDpl :
    State.reset.aborted = false ∧ State.reset.tableCanonical ∧
      ((3 : Half).toNat < 4 ∧ checkPath .indexed 255 = none ∧ State.reset.ifIn = false) ∧ 4 ≤ (4 : Half).toNat ∧
      checkPath .named 2 = some .notNamed ∧
      ((live State.reset).aborted = false ∧ (live State.reset).tableCanonical ∧ (live State.reset).ifIn = true) := by
  decide

theorem witness_SetPresWritesP :
    (withHandler 32 0x00100E00).aborted = false ∧ (withHandler 32 0x00100E00).tableCanonical ∧
      ((1 : Half).toNat < 2 ∧ checkPath .indexed 32 = none ∧ (withHandler 32 0x00100E00).ifIn = false ∧
        (withHandler 32 0x00100E00).hvBit 32 = true) ∧
      2 ≤ (0xFFFF : Half).toNat ∧ checkPath .indexed 9 = some .reservedVector ∧
      ((live State.reset).aborted = false ∧ (live State.reset).tableCanonical ∧ (live State.reset).ifIn = true) ∧
      ((1 : Half).toNat = 1 ∧ checkPath .indexed 33 = none ∧ (withHandler 32 0x00100E00).hvBit 33 = false) := by
  decide

theorem witness_GetCommandsReadFields :
    (live optioned).aborted = false ∧ checkPath .indexed 128 = none ∧ checkPath .indexed 31 = some .reservedVector := by
  decide

/-- The settings of 5.2, in its order. -/
theorem witness_OptionSettingsRoundTrip :
    (withHandler 128 0xC0DE1234).tableCanonical ∧ optLegal ((withHandler 128 0xC0DE1234).opt 128) = true ∧
      (∀ i ∈ [Instr.setPres .indexed 128 0, .setDpl .indexed 128 2, .setTrap .indexed 128 1],
        i.op ∈ [Op.setTrap, Op.setDpl, Op.setPres] ∧ i.slot? = some (.indexed, 128)) ∧
      nextView (fun t => (t.opt 128, t.aborted))
          (execAll [.setPres .indexed 128 0, .setDpl .indexed 128 2, .setTrap .indexed 128 1]
            (withHandler 128 0xC0DE1234)) = some (0x4F00, false) ∧
      checkPath .indexed 128 = none := by decide

/-- A mutation of another slot and a read come between; SETADDR and SETFN. -/
theorem witness_InstalledAddressReadsBack :
    State.reset.tableCanonical ∧
      exec (.setAddr .indexed 32 0xFFFF0000) State.reset = .next (withHandler 32 0xFFFF0000) ∧
      exec (.setFn .indexed .plain 32 0xFFFF0000) State.reset = .next (withHandler 32 0xFFFF0000) ∧
      (∀ i ∈ [Instr.clr .indexed 33, .getOpt .indexed 32], i.op.commandClass = .mutating →
        i.slot? = some (.indexed, 33)) ∧
      nextView State.aborted
          (execAll [.clr .indexed 33, .getOpt .indexed 32, .getAddr .indexed 32] (withHandler 32 0xFFFF0000)) =
        some false :=
  ⟨by decide, rfl, rfl, by decide, by decide⟩

/-! IDTR commands -/

theorem witness_LidtLoadsIdtr :
    (State.reset.aborted = false ∧ State.reset.cplIn = 0 ∧ State.reset.published = false ∧
      State.reset.ifIn = false) ∧
    ((ring3 State.reset).aborted = false ∧ (ring3 State.reset).cplIn ≠ 0) ∧
    (wired.aborted = false ∧ wired.cplIn = 0 ∧ wired.published = true) ∧
    ((live State.reset).aborted = false ∧ (live State.reset).cplIn = 0 ∧ (live State.reset).published = false ∧
      (live State.reset).ifIn = true) := by decide

theorem witness_PublishLoadsTable :
    (State.reset.aborted = false ∧ State.reset.cplIn = 0 ∧ State.reset.published = false ∧
      State.reset.ifIn = false) ∧
    ((ring3 wired).aborted = false ∧ (ring3 wired).cplIn ≠ 0) ∧
    (wired.aborted = false ∧ wired.cplIn = 0 ∧ wired.published = true) ∧
    ((live State.reset).aborted = false ∧ (live State.reset).cplIn = 0 ∧ (live State.reset).published = false ∧
      (live State.reset).ifIn = true) := by decide

/-- Two states with different tables. -/
theorem witness_PublishReadsNoSlot :
    State.reset.aborted = false ∧ optioned.aborted = false ∧ State.reset.cplIn = optioned.cplIn ∧
      State.reset.published = optioned.published ∧ State.reset.ifIn = optioned.ifIn ∧
      exec .publish State.reset = .next ((State.reset.setIdtr publishedIdtr).markPublished) ∧
      exec .publish optioned = .next ((optioned.setIdtr publishedIdtr).markPublished) ∧
      State.reset.ent 128 ≠ optioned.ent 128 :=
  ⟨rfl, rfl, rfl, rfl, rfl, rfl, rfl, by decide⟩

/-! Frames -/

/-- A store that completes, one of the four option setters, and one that aborts. -/
theorem witness_MutatingCommandFrame :
    (Op.setAddr.commandClass = .mutating ∧ State.reset.tableCanonical ∧
      exec (.setAddr .indexed 32 0x00100E00) State.reset = .next (withHandler 32 0x00100E00) ∧
      (withHandler 32 0x00100E00).aborted = false) ∧
    (Op.setTrap ∈ [Op.setOpt, Op.setTrap, Op.setDpl, Op.setPres] ∧
      exec (.setTrap .indexed 50 1) State.reset = .next (State.reset.setOpt 50 (optSetTrap (State.reset.opt 50) true))) ∧
    (exec (.clr .indexed 9) State.reset = .next (State.reset.abort .reservedVector) ∧
      (State.reset.abort .reservedVector).aborted = true) :=
  ⟨⟨rfl, rfl, rfl, rfl⟩, ⟨by decide, rfl⟩, rfl, rfl⟩

theorem witness_ReadingCommandFrame :
    (Op.getEnt.commandClass = .reading ∧
      exec (.getEnt .indexed 128) optioned = .next (optioned.setRdata (optioned.ent 128)) ∧
      (optioned.setRdata (optioned.ent 128)).aborted = false) ∧
    (exec (.getEnt .indexed 18) optioned = .next (optioned.abort .diverging) ∧
      (optioned.abort .diverging).aborted = true) :=
  ⟨⟨rfl, rfl, rfl⟩, rfl, rfl⟩

theorem witness_IdtrCommandFrame :
    (Op.lidt.commandClass = .idtrLoad ∧
      exec (.lidt 0x03FF 0x00200000) State.reset =
        .next (State.reset.setIdtr { limit := 0x03FF, base := 0x00200000 })) ∧
    (exec .publish wired = .next (wired.abort .alreadyPublished) ∧
      (wired.abort .alreadyPublished).aborted = true) :=
  ⟨⟨rfl, rfl⟩, rfl, rfl⟩

theorem witness_CommandsButPublishAreIdempotent :
    (Instr.setAddr .indexed 32 0x00100E00) ≠ .publish ∧ State.reset.tableCanonical ∧
      exec (.setAddr .indexed 32 0x00100E00) State.reset = .next (withHandler 32 0x00100E00) :=
  ⟨by decide, rfl, rfl⟩

/-! Memory and reset -/

/-- The first and the last byte of the window, and a command that writes the table. -/
theorem witness_ForeignStoreIntoWindowRefused :
    (∀ x, (facing State.reset x).inputs = [x]) ∧
      (Config.idtBase.toNat ≤ Config.idtBase.toNat ∧ Config.idtBase.toNat ≤ Config.idtBase.toNat + 2047) ∧
      (∃ a : Word, Config.idtBase.toNat ≤ a.toNat ∧ a.toNat = Config.idtBase.toNat + 2047) ∧
      nextView (fun t => decide (t.tbl ≠ State.reset.tbl))
        (step (facing State.reset (.command 0x2020000000100E00))) = some true := by
  have hb := idtBase_le
  refine ⟨fun _ => rfl, ⟨le_refl _, by omega⟩, ⟨BitVec.ofNat 32 (Config.idtBase.toNat + 2047), ?_, ?_⟩, by decide⟩
  · rw [BitVec.toNat_ofNat, Nat.mod_eq_of_lt (by omega)]; exact Nat.le_add_right _ _
  · rw [BitVec.toNat_ofNat, Nat.mod_eq_of_lt (by omega)]

theorem witness_IdtrImageIsLimitThenBase :
    exec .publish State.reset = .next ((State.reset.setIdtr publishedIdtr).markPublished) ∧
      State.reset.aborted = false ∧ ((State.reset.setIdtr publishedIdtr).markPublished).aborted = false :=
  ⟨rfl, rfl, rfl⟩

theorem witness_ResetSetsEveryElement :
    (facing (wired.abort .liveMutation) .reset).inputs = [.reset] ∧
      (facing (wired.abort .liveMutation) .reset).ent 32 ≠ defaultEntry ∧
      ((facing (wired.abort .liveMutation) .reset).aborted = true ∧
        (facing (wired.abort .liveMutation) .reset).published = true) ∧
      nextView (fun t => (t.aborted, t.published)) (step (facing (wired.abort .liveMutation) .reset)) =
        some (false, false) := by decide

/-! Invariants and whole-machine rules -/

theorem witness_StepKeepsTableCanonical :
    (facing wired (.command 0x1020000000000000)).tableCanonical ∧
      ∃ t, step (facing wired (.command 0x1020000000000000)) = .next t :=
  ⟨by decide, _, rfl⟩

theorem witness_StepKeepsHardwiredOptionBits :
    (facing wired (.command 0x1020000000000000)).tableCanonical ∧
      (facing wired (.command 0x1020000000000000)).optionsLegal ∧
      ∃ t, step (facing wired (.command 0x1020000000000000)) = .next t :=
  ⟨by decide, wired_inv.optionsLegal, _, rfl⟩

theorem witness_StepKeepsBlockInvariant :
    (facing wired (.command 0x1020000000000000)).Inv ∧
      ∃ t, step (facing wired (.command 0x1020000000000000)) = .next t :=
  ⟨⟨by decide, wired_inv.optionsLegal, wired_inv.presentInstalled, wired_inv.reservedAbsent, wired_inv.publishedTable,
    wired_inv.errConsistent⟩, _, rfl⟩

/-- A run that presents a store to a reserved vector, then a reset. -/
theorem witness_ReservedVectorsAbsentOnEveryRun :
    ∃ t, Host.Core.run core 2 (launchState 0x0008 [.command 0x2009000000000100, .reset]) = .next t :=
  ⟨_, rfl⟩

/-- Reset after an abort and a publication; PUBLISH; LIDT; an abort; a step of the pins. -/
theorem witness_WhoWritesStatusAndIdtr :
    ((facing (wired.abort .liveMutation) .reset).aborted = true ∧
      (facing (wired.abort .liveMutation) .reset).published = true ∧
      nextView (fun t => (t.aborted, t.published)) (step (facing (wired.abort .liveMutation) .reset)) =
        some (false, false)) ∧
    ((facing State.reset (.command 0xF000000000000000)).published = false ∧
      nextView State.published (step (facing State.reset (.command 0xF000000000000000))) = some true) ∧
    (∃ s t : State, step s = .next t ∧ t.idtr ≠ s.idtr) ∧
    ((facing State.reset (.command 0)).aborted = false ∧ (facing State.reset (.command 0)).err = 0 ∧
      nextView (fun t => (t.aborted, t.err)) (step (facing State.reset (.command 0))) = some (true, 1)) ∧
    ((facing wired (.pins 0x001B 3 true)).inputs.head? ≠ some .reset ∧
      (∀ w, (facing wired (.pins 0x001B 3 true)).inputs.head? ≠ some (.command w)) ∧
      ∃ t, step (facing wired (.pins 0x001B 3 true)) = .next t) := by
  refine ⟨by decide, by decide, ?_, by decide, by decide, fun w h => (by cases h), _, rfl⟩
  refine ⟨facing (State.reset.setIdtr { limit := 0, base := 0 }) (.command 0xE00007FF00104000),
    State.reset.setIdtr { limit := 0x07FF, base := 0x00104000 }, rfl, by decide⟩

/-- A run with gate reads before, between and after its commands, a gate read after the last one. -/
def sampleRun : List RunEvent :=
  [.gateRead 3, .command 0x2020000000100E00 0x0008 0 false, .gateRead 32, .command 0xF000000000000000 0x0008 0 false,
    .gateRead 255]

/-- It ends after six steps, the last command's; a command of it still waits before that. -/
theorem witness_RunEndsAfterLastCommand :
    stepsToEnd (runInputs sampleRun) = 6 ∧ stepsToEnd (runInputs (sampleRun.filter RunEvent.isCommand)) = 4 ∧
      Input.command 0xF000000000000000 ∈ (launchState 0x0008 (runInputs sampleRun)).inputs ∧
      (∃ u, Host.Core.run core 5 (launchState 0x0008 (runInputs sampleRun)) = .next u) ∧
      nextView (fun t => (t.ended, t.status, t.ent 32)) (runToEnd (launchState 0x0008 (runInputs sampleRun))) =
        some (true, 0x4000, 0x00108E0000080E00) :=
  ⟨by decide, by decide, by decide, ⟨_, rfl⟩, by decide⟩

theorem witness_WhoWritesAddressesAndHandlerBits :
    (facing State.reset (.command 0x2020000000100E00)).tableCanonical ∧
      nextView (fun t => (entLow (t.ent 32), entSel (t.ent 32), entMid (t.ent 32), t.hvBit 32))
        (step (facing State.reset (.command 0x2020000000100E00))) = some (0x0E00, 0x0008, 0x0010, true) ∧
      (entLow (State.reset.ent 32), entSel (State.reset.ent 32), entMid (State.reset.ent 32), State.reset.hvBit 32) =
        (0, 0, 0, false) := by decide

/-! The gate reader and dispatch -/

/-- 6: out of limit, served one slot up, misaligned, and published. -/
theorem witness_GateReadResult :
    (∃ s : State, ∃ g : Vec, s.idtr.limit.toNat < 8 * g.toNat + 7) ∧
    (∃ s : State, ∃ g v : Vec, 8 * g.toNat + 7 ≤ s.idtr.limit.toNat ∧
      ((s.idtr.base.toNat + 8 * g.toNat) % 2 ^ 32 + 2 ^ 32 - Config.idtBase.toNat) % 2 ^ 32 = 8 * v.toNat) ∧
    (∃ s : State, ∃ g : Vec, 8 * g.toNat + 7 ≤ s.idtr.limit.toNat ∧
      ∀ v : Vec, ((s.idtr.base.toNat + 8 * g.toNat) % 2 ^ 32 + 2 ^ 32 - Config.idtBase.toNat) % 2 ^ 32 ≠ 8 * v.toNat) ∧
    wired.idtr = { limit := 0x07FF, base := Config.idtBase } ∧
    (facing wired (.gateRead 32)).inputs = [.gateRead 32] := by
  refine ⟨⟨State.reset.setIdtr { limit := 0x00FF, base := 0 }, 32, by decide⟩,
    ⟨offset 8, 0, 1, by decide, offset_index 0⟩, ⟨offset 4, 0, by decide, fun v h => ?_⟩, rfl, rfl⟩
  have e := (offset_index 0).symm.trans h
  have e0 : (4 + 8 * (0 : Vec).toNat) % 2 ^ 32 = 4 := by decide
  omega

theorem witness_InstalledGateDecodes :
    State.reset.aborted = false ∧ State.reset.tableCanonical ∧ checkPath .named 14 = none ∧
      State.reset.ifIn = false := by decide

/-- Unpublished, out of limit, not served, and an absent gate of a published table. -/
theorem witness_UnusableGateFaults :
    (¬ (timer.cause = .device ∧ (live State.reset).ifIn = false) ∧ (live State.reset).published = false) ∧
    (∃ s : State, ¬ (timer.cause = .device ∧ s.ifIn = false) ∧ gateRead s timer.vec = .outOfLimit) ∧
    gateRead (live (offset 4)) timer.vec = .notServed ∧
    (∃ e, gateRead (live (wired.setEnt 32 defaultEntry)) timer.vec = .entry e ∧ e.getLsbD 47 = false) := by
  refine ⟨by decide, ⟨live (State.reset.setIdtr { limit := 0x00FF, base := 0 }), by decide, by decide⟩,
    (gateRead_congr (s := offset 4) (t := live (offset 4)) (g := 32) rfl rfl).trans offset_notServed, defaultEntry, ?_, by decide⟩
  exact (published_gateRead (by decide) rfl).trans (congrArg _ (State.ent_setEnt_self (s := wired) rfl))

theorem witness_DispatchTransfersThroughGate :
    (live wired).published = true ∧ (timer.cause = .device → (live wired).ifIn = true) ∧
      gateRead (live wired) timer.vec = .entry 0x00108E0000080E00 ∧ (0x00108E0000080E00 : DWord).getLsbD 47 = true ∧
      (softTimer.cause = .software → (live wired).cplIn.toNat ≤ ((0x00108E0000080E00 : DWord).extractLsb' 45 2).toNat) ∧
      timer.handler = kindOf timer.vec ∧ kindOf timer.vec ≠ none ∧ (live wired).cplIn = 0 ∧
      kindOf timer.vec = some .plain ∧
      (∀ v ∈ servedVectors, gateRead (serving v) (exceptionAt v).vec = .entry ((serving v).ent v)) ∧
      (∀ v ∈ servedVectors, (serving v).published = true ∧ (exceptionAt v).cause ≠ .device ∧
        (exceptionAt v).cause ≠ .software ∧ ((serving v).ent v).getLsbD 47 = true ∧
        (exceptionAt v).handler = kindOf (exceptionAt v).vec ∧ kindOf (exceptionAt v).vec ≠ none ∧
        (serving v).cplIn = 0) ∧
      kindOf (8 : Vec) = some .divergingWithErrorCode ∧ (timer.cause = .device ∧ wired.ifIn = false) :=
  ⟨by decide, by decide, wired_gateRead rfl rfl, by decide, by decide, by decide, by decide, by decide, by decide,
    fun _ hv => serving_gateRead hv, by decide, by decide⟩

/-- INT 32 from ring 3 through a gate of DPL 0, a device interrupt, and INT 32 from ring 0. -/
theorem witness_DplGuardsSoftwareInterrupts :
    wired.published = true ∧ gateRead (ring3 wired) softTimer.vec = .entry 0x00108E0000080E00 ∧
      (0x00108E0000080E00 : DWord).getLsbD 47 = true ∧
      (softTimer.cause = .software ∧ ((0x00108E0000080E00 : DWord).extractLsb' 45 2).toNat < (ring3 wired).cplIn.toNat) ∧
      timer.cause ≠ .software ∧ wired.cplIn.toNat ≤ ((0x00108E0000080E00 : DWord).extractLsb' 45 2).toNat :=
  ⟨by decide, wired_gateRead rfl rfl, by decide, by decide, by decide, by decide⟩

/-- Vectors of every range of the saved-IP column that return, and one that does not; a GET command stands between the trap
and the return. -/
theorem witness_ReturnResumesInterruptedContext :
    (∃ u u', takeTrap timer (live wired) = .next u ∧ exec (.getEnt .indexed 32) u = .next u' ∧
      u'.active = u.active ∧ u' ≠ u) ∧
    (∃ u, takeTrap timer (live wired) = .next u ∧ u.active ≠ (live wired).active ∧ timer.vec ≠ 8 ∧ timer.vec ≠ 18) ∧
      (∀ v ∈ servedVectors, ∃ u, takeTrap (exceptionAt v) (serving v) = .next u ∧ u.active ≠ (serving v).active) ∧
      (exceptionAt 8).vec = 8 :=
  ⟨⟨_, _, wired_takesTimer, rfl, rfl, fun h => absurd (congrArg State.rdata h) (by decide)⟩,
    ⟨_, wired_takesTimer, by decide, by decide, by decide⟩,
    fun _ hv => ⟨_, serving_takes hv, fun h => by cases h⟩, rfl⟩

theorem witness_ReservedVectorsNeverDispatched :
    (live wired).Inv ∧ classOf 31 = .reserved ∧ (live wired).published = true ∧
      (timer.cause = .device → (live wired).ifIn = true) :=
  ⟨⟨wired_inv.tableCanonical, wired_inv.optionsLegal, wired_inv.presentInstalled, wired_inv.reservedAbsent,
    wired_inv.publishedTable, wired_inv.errConsistent⟩, by decide, by decide, by decide⟩

/-- Each input in front, an address below the window or above it, and nothing presented. -/
theorem witness_StepServesTrapsReturnsAndPins :
    (∀ x, (facing (live wired) x).inputs = [x]) ∧
      (∃ a : Word, a.toNat < Config.idtBase.toNat ∨ Config.idtBase.toNat + 2047 < a.toNat) ∧
      State.reset.inputs = [] := by
  have hb := idtBase_le
  refine ⟨fun _ => rfl, ?_, rfl⟩
  by_cases h : 0 < Config.idtBase.toNat
  · exact ⟨0, .inl (by simpa using h)⟩
  · exact ⟨2048, .inr (by simp; omega)⟩

/-! ### Dispatch: a device interrupt and its return (R205, R206, R207, R210) -/

theorem test_takeTrap :
    nextView (fun u => (u.cpuTarget, u.csIn, u.cplIn, u.ifIn, u.active.map Frame.ip)) (takeTrap timer (live wired)) =
      some (some 0x00100E00, 0x0008, 0, false, [0x1002]) := by
  rw [wired_takesTimer]
  decide

theorem test_return :
    nextView (fun u => (u.cpuTarget, u.cpuFlags, u.csIn, u.ifIn, u.active))
      (returnFromTrap (enterHandler timer 0x00108E0000080E00 (live wired))) = some (some 0x1002, some 0x202, 0x0008, true, []) := by
  decide

end Sys2Proof.Tests
end

section
/-! Who reads `cpl_in` (spec/10_state.md R32): LIDT and PUBLISH check it first, and every other command's checks and
writes are the same whatever it is. -/

namespace Sys2Proof.Machine

/-- A change of the state that leaves ABORTED alone and commutes with the abort commutes with a command whose checks
it does not alter. -/
theorem runCommand_map (f : State → State) {s t u : State} {cs : List (Option AbortCode)}
    (ha : (f s).aborted = s.aborted) (hf : ∀ c, f (s.abort c) = (f s).abort c) (h : runCommand s cs t = .next u) :
    runCommand (f s) cs (f t) = .next (f u) := by
  rcases runCommand_cases h with ⟨hs, rfl⟩ | ⟨hs, c, hc, rfl⟩ | ⟨hs, hc, rfl⟩
  · exact runCommand_aborted (ha.trans hs)
  · rw [hf, runCommand_fails (ha.trans hs) hc]
  · exact runCommand_done (ha.trans hs) hc

/-- The pipeline itself does not read `cpl_in`; only a check can. -/
theorem runCommand_cplIn {s t u : State} {cs : List (Option AbortCode)} (c : BitVec 2)
    (h : runCommand s cs t = .next u) :
    runCommand { s with cplIn := c } cs { t with cplIn := c } = .next { u with cplIn := c } :=
  runCommand_map (fun x => { x with cplIn := c }) rfl (fun _ => rfl) h

/-- No entry command has a check or a write that reads `cpl_in`. -/
theorem exec_cplIn {i : Instr} {s t : State} (c : BitVec 2) (hi : i.op.commandClass ≠ .idtrLoad)
    (h : exec i s = .next t) : exec i { s with cplIn := c } = .next { t with cplIn := c } := by
  cases i
  case lidt => exact absurd rfl hi
  case publish => exact absurd rfl hi
  all_goals exact runCommand_cplIn c h

/-- The privilege check is the first of both loads (R170, R171). -/
theorem exec_idtrLoad_privilege {i : Instr} {s : State} (hi : i.op.commandClass = .idtrLoad)
    (ha : s.aborted = false) (hc : s.cplIn ≠ 0) : exec i s = .next (s.abort .privilege) := by
  have hfirst (cs : List (Option AbortCode)) : firstFailing (checkPrivilege s :: cs) = some .privilege := by
    rw [checkPrivilege_fail hc, firstFailing_some]
  cases i
  case lidt => exact runCommand_fails ha (hfirst _)
  case publish => exact runCommand_fails ha (hfirst _)
  all_goals cases hi

/-- Settles O22: both loads begin with the privilege check, and `cpl_in` occurs in no other command. -/
theorem onlyLoadsReadPrivilege : Obligations.OnlyLoadsReadPrivilege :=
  ⟨fun _ _ => exec_idtrLoad_privilege, fun _ _ _ c => exec_cplIn c⟩

end Sys2Proof.Machine
end

section
/-! Who writes the table memory (spec/20_memory.md R56): a store of another agent into the window is refused, and a
step that leaves the block as it was leaves its table. -/

namespace Sys2Proof.Machine

/-- A step serves the first waiting input. -/
theorem step_cons {s : State} {x : Input} {rest : List Input} (h : s.inputs = x :: rest) :
    step s = serve x (s.setInputs rest) := by
  simp only [step, serveNext, h]

/-- A byte's address in `[IDT_BASE, IDT_BASE + 2047]` has its offset from IDT_BASE as its table index. -/
theorem windowIndex_byte {a : Word} (hlo : Config.idtBase.toNat ≤ a.toNat)
    (hhi : a.toNat ≤ Config.idtBase.toNat + 2047) :
    windowIndex a 1 = some (a.toNat - Config.idtBase.toNat) := by
  have hoff : (a - Config.idtBase).toNat = a.toNat - Config.idtBase.toNat := BitVec.toNat_sub_of_le hlo
  have hin : a.toNat - Config.idtBase.toNat + 1 ≤ 2048 := by omega
  rw [windowIndex, hoff, if_pos hin]

/-- Another agent's store of a byte at a table index is refused. -/
theorem storeFromOutside_window {a : Word} {i : Nat} (s : State) (h : windowIndex a 1 = some i) :
    storeFromOutside a s = .refused .foreignStore := by
  simp only [storeFromOutside, h]

/-- Settles O42: an address of the window has a table index, so the store is refused; and of the three things a step
can do to the block (`step_cases`), the one that is neither a command's nor a reset's leaves the table. -/
theorem foreignStoreIntoWindowRefused : Obligations.ForeignStoreIntoWindowRefused := by
  refine ⟨fun s addr b rest hi hlo hhi => ?_, fun s t hstep hne => ?_⟩
  · rw [step_cons hi]
    exact storeFromOutside_window _ (windowIndex_byte hlo hhi)
  · rcases step_cases hstep with ⟨⟨htbl, -⟩, -⟩ | ⟨w, rest, hi, -⟩ | ⟨rest, hi, -⟩
    · exact absurd htbl hne
    · exact .inr ⟨w, by rw [hi, List.head?_cons]⟩
    · exact .inl (by rw [hi, List.head?_cons])

end Sys2Proof.Machine
end

section
/-! The split of an address and its reconstruction, as numbers (spec/30_encoding.md R89). -/

namespace Sys2Proof.Machine

/-- LOW is the address modulo 65536. -/
theorem addrLow_toNat (a : Word) : (addrLow a).toNat = a.toNat % 65536 := by
  rw [addrLow, BitVec.extractLsb'_toNat, Nat.shiftRight_zero]

/-- MID is the address divided by 65536: it loses nothing of the quotient, which is below 65536. -/
theorem addrMid_toNat (a : Word) : (addrMid a).toNat = a.toNat / 65536 := by
  have ha := a.isLt
  rw [addrMid, BitVec.extractLsb'_toNat, Nat.shiftRight_eq_div_pow]
  omega

/-- The halves of `{MID, LOW}` do not overlap, so joining them is adding. -/
theorem addrJoin_toNat (mid low : Half) : (addrJoin mid low).toNat = mid.toNat * 65536 + low.toNat := by
  rw [addrJoin, BitVec.toNat_append, ← Nat.shiftLeft_add_eq_or_of_lt low.isLt, Nat.shiftLeft_eq]

/-- Settles O9: each half as a number, the join as a number, and the join of a split address. -/
theorem addressSplitIsExact : Obligations.AddressSplitIsExact :=
  ⟨fun a => ⟨addrLow_toNat a, addrMid_toNat a⟩, addrJoin_toNat, addrJoin_split, by decide, by decide⟩

end Sys2Proof.Machine
end

section
/-! The IDTR image and the operands of LIDT and PUBLISH (spec/30_encoding.md R87, R88). -/

namespace Sys2Proof.Machine

/-- One byte of a word, as a number. -/
theorem extractByte_toNat {w : Nat} (x : BitVec w) (k : Nat) :
    (x.extractLsb' k 8).toNat = x.toNat / 2 ^ k % 256 := by
  rw [BitVec.extractLsb'_toNat, Nat.shiftRight_eq_div_pow]

/-- The first two bytes of the image are the limit, least significant first. -/
theorem idtrImage_limit (r : Idtr) :
    ((idtrImage r).take 2).foldr (fun b n => b.toNat + 256 * n) 0 = r.limit.toNat := by
  have hl := r.limit.isLt
  simp only [idtrImage, List.take, List.foldr, extractByte_toNat]
  omega

/-- The last four bytes of the image are the base, least significant first. -/
theorem idtrImage_base (r : Idtr) :
    ((idtrImage r).drop 2).foldr (fun b n => b.toNat + 256 * n) 0 = r.base.toNat := by
  have hb := r.base.isLt
  simp only [idtrImage, List.drop, List.foldr, extractByte_toNat]
  omega

/-- The fields of a command's word are the fields the command is encoded with. -/
theorem fieldsOf_encode (i : Instr) : fieldsOf (encode i) = encodeFields i := fieldsOf_word _

/-- A PUBLISH that does not abort loads the limit 2047 and IDT_BASE (R171). -/
theorem exec_publish_idtr {s t : State} (h : exec .publish s = .next t) (hs : s.aborted = false)
    (ht : t.aborted = false) : t.idtr = publishedIdtr := by
  rcases exec_cases h with ⟨ha, -⟩ | ⟨-, c, rfl⟩ | ⟨-, -, -, -, rfl⟩
  · rw [hs] at ha
    cases ha
  · rw [State.abort_aborted] at ht
    cases ht
  · rw [State.markPublished_idtr, State.setIdtr_idtr]

/-- Settles O11: the bytes of any image, the fields of a LIDT word, and the image of what PUBLISH loads. -/
theorem idtrImageIsLimitThenBase : Obligations.IdtrImageIsLimitThenBase := by
  refine ⟨fun r => ⟨rfl, idtrImage_limit r, idtrImage_base r⟩, fun limit base => ?_, fun s t h hs ht => ?_, by decide⟩
  · have hf := fieldsOf_encode (.lidt limit base)
    exact ⟨congrArg Fields.aux hf, congrArg Fields.data hf⟩
  · rw [exec_publish_idtr h hs ht]
    exact ⟨by decide, idtrImage_base publishedIdtr⟩

end Sys2Proof.Machine
end

section
/-! What a presented word leaves of the block once the abort is raised (spec/40_command_execution.md R122). -/

namespace Sys2Proof.Machine

/-- A word that takes ABORTED from 0 to 1 is one whose check failed: a performed command keeps ABORTED. -/
theorem presentWord_raises {w : DWord} {s t : State} (h : presentWord w s = .next t) (hs : s.aborted = false)
    (ht : t.aborted = true) : ∃ c, t = s.abort c := by
  rcases presentWord_cases h with ⟨ha, -⟩ | ⟨-, hc⟩ | ⟨-, i, -, hd⟩
  · rw [hs] at ha
    cases ha
  · exact hc
  · rw [hd.aborted, hs] at ht
    cases ht

/-- A word presented after an abort is discarded. -/
theorem presentWord_aborted {w : DWord} {s t : State} (h : presentWord w s = .next t) (hs : s.aborted = true) :
    t = s := by
  rcases presentWord_cases h with ⟨-, ht⟩ | ⟨ha, -⟩ | ⟨ha, -⟩
  · exact ht
  all_goals rw [hs] at ha; cases ha

/-- A word that leaves ABORTED at 1 leaves the gate reader's table and IDTR. -/
theorem presentWord_gateRead {w : DWord} {s t : State} (h : presentWord w s = .next t) (ht : t.aborted = true)
    (g : Vec) : gateRead t g = gateRead s g := by
  cases hs : s.aborted with
  | true => rw [presentWord_aborted h hs]
  | false =>
    obtain ⟨c, rfl⟩ := presentWord_raises h hs ht
    exact gateRead_congr (State.abort_idtr s c) (State.abort_tbl s c)

/-- A step that takes ABORTED from 1 to 0 performs a reset: neither a presented word nor any other input does. -/
theorem step_clears_aborted {s t : State} (h : step s = .next t) (hs : s.aborted = true) (ht : t.aborted = false) :
    ∃ rest, s.inputs = .reset :: rest := by
  rcases step_cases h with ⟨⟨-, -, -, -, hkept, -⟩, -⟩ | ⟨w, rest, -, hw⟩ | ⟨rest, hi, -⟩
  · rw [hkept, hs] at ht
    cases ht
  · rw [presentWord_aborted hw hs, State.setInputs_aborted, hs] at ht
    cases ht
  · exact ⟨rest, hi⟩

/-- Settles O16: an abort is `State.abort`, it is sticky, the gate reader sees what it saw, and reset ends it. -/
theorem abortWritesOnlyItsCode : Obligations.AbortWritesOnlyItsCode := by
  refine ⟨fun w s t h => ⟨presentWord_raises h, presentWord_aborted h, presentWord_gateRead h⟩, fun s t h hs ht => ?_⟩
  obtain ⟨rest, hi⟩ := step_clears_aborted h hs ht
  rw [hi, List.head?_cons]

end Sys2Proof.Machine
end

section
/-! The pipeline of an entry command (spec/40_command_execution.md R121): the path check, then the checks that follow
it, none of which raises a path code. -/

namespace Sys2Proof.Machine

/-- The checks of an entry command that follow its path check, in the order of R121 and R215. -/
def checksAfterPath (s : State) : Instr → List (Option AbortCode)
  | .setFn _ k v _ => [checkKind k v, checkLive s]
  | .setOpt _ v w => [checkLive s, checkMustBeOne w, checkReservedBits w, checkHandler s v (optPresent w)]
  | .setPres _ v aux => [checkLive s, checkHandler s v (auxBit aux)]
  | .clr _ _ | .setAddr _ _ _ | .setTrap _ _ _ | .setDpl _ _ _ => [checkLive s]
  | .getEnt _ _ | .getAddr _ _ | .getOpt _ _ | .getTrap _ _ | .getDpl _ _ | .getPres _ _ => []
  | .lidt _ _ | .publish => []

/-- A check that passes leaves the outcome to the others. -/
theorem runCommand_pass {s t : State} {c : Option AbortCode} {cs : List (Option AbortCode)} (h : c = none) :
    runCommand s (c :: cs) t = runCommand s cs t := by
  rw [h]
  rfl

/-- A well-formed entry command checks its path first; its own writes leave ABORTED alone. -/
theorem exec_entry {i : Instr} {p : Path} {v : Vec} (s : State) (hi : i.slot? = some (p, v))
    (hw : i.wellFormed = true) :
    ∃ done, exec i s = runCommand s (checkPath p v :: checksAfterPath s i) done ∧ done.aborted = s.aborted := by
  cases i
  case lidt | publish => cases hi
  case setTrap aux | setPres aux =>
    cases hi
    exact ⟨_, runCommand_pass (require_true ((auxBitOnly_iff aux).mpr hw)), State.setOpt_aborted _ _ _⟩
  case setDpl aux =>
    cases hi
    exact ⟨_, runCommand_pass (require_true ((auxPairOnly_iff aux).mpr hw)), State.setOpt_aborted _ _ _⟩
  all_goals
    cases hi
    exact ⟨_, rfl, by simp⟩

/-- The check that decides the abort is one of the checks. -/
theorem firstFailing_mem {c : AbortCode} {cs : List (Option AbortCode)} (h : firstFailing cs = some c) :
    some c ∈ cs := by
  induction cs with
  | nil => cases h
  | cons x xs ih =>
    cases x with
    | some d =>
      cases h
      exact List.mem_cons_self
    | none => exact List.mem_cons_of_mem _ (ih h)

/-- The check raises none of the codes 2 to 5 of the two paths (R125, R127). -/
def RaisesNoPathCode (x : Option AbortCode) : Prop := ∀ c, x = some c → c.code.toNat ∉ [2, 3, 4, 5]

/-- A check raises no code but its own. -/
theorem require_raisesNoPathCode {b : Bool} {c : AbortCode} (hc : c.code.toNat ∉ [2, 3, 4, 5]) :
    RaisesNoPathCode (require b c) := by
  intro d hd
  cases b with
  | true => cases hd
  | false =>
    cases hd
    exact hc

theorem checkLive_raisesNoPathCode (s : State) : RaisesNoPathCode (checkLive s) :=
  require_raisesNoPathCode (by decide)

theorem checkMustBeOne_raisesNoPathCode (w : Half) : RaisesNoPathCode (checkMustBeOne w) :=
  require_raisesNoPathCode (by decide)

theorem checkReservedBits_raisesNoPathCode (w : Half) : RaisesNoPathCode (checkReservedBits w) :=
  require_raisesNoPathCode (by decide)

theorem checkHandler_raisesNoPathCode (s : State) (v : Vec) (b : Bool) : RaisesNoPathCode (checkHandler s v b) :=
  require_raisesNoPathCode (by decide)

theorem checkKind_raisesNoPathCode (k : HandlerKind) (v : Vec) : RaisesNoPathCode (checkKind k v) := by
  intro c hc
  by_cases hk : kindOf v = some k
  · rw [checkKind_pass hk] at hc
    cases hc
  · rw [checkKind_fail hk] at hc
    cases hc
    decide

/-- The codes 2 to 5 are the path checks' alone. -/
theorem checksAfterPath_raiseNoPathCode (s : State) (i : Instr) : ∀ x ∈ checksAfterPath s i, RaisesNoPathCode x := by
  cases i <;>
    simp [checksAfterPath, checkLive_raisesNoPathCode, checkMustBeOne_raisesNoPathCode,
      checkReservedBits_raisesNoPathCode, checkHandler_raisesNoPathCode, checkKind_raisesNoPathCode]

/-- A well-formed entry command aborts with the code of its path check; where that check passes, it does not abort
with a path code. -/
theorem exec_entry_path {i : Instr} {p : Path} {v : Vec} {s : State} (hi : i.slot? = some (p, v))
    (hw : i.wellFormed = true) (ha : s.aborted = false) :
    ∃ t, exec i s = .next t ∧ (∀ c, checkPath p v = some c → t = s.abort c) ∧
      (checkPath p v = none → t.aborted = true → t.err.toNat ∉ [2, 3, 4, 5]) := by
  obtain ⟨done, hrun, hdone⟩ := exec_entry s hi hw
  rw [hrun]
  cases hp : checkPath p v with
  | some c =>
    refine ⟨s.abort c, runCommand_fails ha (firstFailing_some c _), fun d hd => ?_, nofun⟩
    cases hd
    rfl
  | none =>
    rw [runCommand_pass rfl]
    cases hc : firstFailing (checksAfterPath s i) with
    | some c =>
      exact ⟨s.abort c, runCommand_fails ha hc, nofun,
        fun _ _ => checksAfterPath_raiseNoPathCode s i _ (firstFailing_mem hc) c rfl⟩
    | none =>
      refine ⟨done, runCommand_done ha hc, nofun, fun _ ht => ?_⟩
      rw [hdone, ha] at ht
      cases ht

end Sys2Proof.Machine
end

section
/-! What the two path checks accept and refuse (spec/40_command_execution.md R125, R127), and so every entry
command. -/

namespace Sys2Proof.Machine

/-- What the indexed check answers on each vector of a list, it answers on a vector whose number is in the list. -/
theorem checkIndexed_of_mem {l : List Nat} {r : Option AbortCode} {v : Vec}
    (hl : ∀ n ∈ l, checkIndexed (BitVec.ofNat 8 n) = r) (hv : v.toNat ∈ l) : checkIndexed v = r := by
  simpa using hl v.toNat hv

/-- A vector outside the three failing sets is Plain, and the indexed path accepts it. -/
theorem checkIndexed_plain {v : Vec} (h : v.toNat ≤ 7 ∨ v.toNat = 16 ∨ v.toNat = 19 ∨ 32 ≤ v.toNat) :
    checkIndexed v = none := by
  have hreserved : v.toNat ∉ reservedVectors := by
    simp only [reservedVectors, List.mem_cons, List.not_mem_nil, or_false]
    omega
  have herror : v.toNat ∉ errorCodeVectors := by
    simp only [errorCodeVectors, List.mem_cons, List.not_mem_nil, or_false]
    omega
  have hplain : kindOf v = some .plain := by
    rw [kindOf, if_neg hreserved, if_neg (by omega), if_neg herror, if_neg (by omega)]
  rw [checkIndexed, hplain]

/-- Settles O18: each failing set fails its check with its code, and every other vector is Plain. -/
theorem indexedPathCodes : Obligations.IndexedPathCodes := by
  intro i v s hi hw ha
  obtain ⟨t, ht, hfail, hpass⟩ := exec_entry_path hi hw ha
  refine ⟨t, ht, fun h => hfail .reservedVector ?_, fun h => hfail .hasErrorCode ?_, fun h => hfail .diverging ?_,
    fun h => hpass (checkIndexed_plain h)⟩
  · exact checkIndexed_of_mem (by decide) h
  · exact checkIndexed_of_mem (by decide) h
  · exact checkIndexed_of_mem (l := [18]) (by decide) (List.mem_singleton.mpr h)

/-- The table of the 18 named vectors lists the named set. -/
theorem namedTable_vectors : namedTable.map Prod.fst = namedVectors := rfl

/-- The kinds beside the named vectors are those of the classification (R124). -/
theorem kindOf_namedTable {v : Vec} {k : HandlerKind} (h : (v.toNat, k) ∈ namedTable) : kindOf v = some k := by
  have htable : ∀ e ∈ namedTable, kindOf (BitVec.ofNat 8 e.1) = some e.2 := by decide
  simpa using htable _ h

/-- Settles O19: the named check fails with code 5 exactly outside the table's vectors. -/
theorem namedPathCode : Obligations.NamedPathCode := by
  refine ⟨fun i v s hi hw ha => ?_, fun v k => kindOf_namedTable⟩
  obtain ⟨t, ht, hfail, hpass⟩ := exec_entry_path hi hw ha
  rw [namedTable_vectors]
  exact ⟨t, ht, fun h => hfail .notNamed (if_neg h), fun h => hpass (if_pos h)⟩

end Sys2Proof.Machine
end

section
/-! Who reads `if_in` (spec/40_command_execution.md R126; spec/44_idtr_load.md R170, R171). -/

namespace Sys2Proof.Machine

/-- With `if_in = 1` the interrupt check is the first to fail after the path and the kind check. -/
theorem checksAfterPath_live {i : Instr} {p : Path} {v : Vec} {s : State} (hm : i.op.commandClass = .mutating)
    (hi : i.slot? = some (p, v)) (hk : ∀ k a, i = .setFn p k v a → kindOf v = some k) (hf : s.ifIn = true) :
    firstFailing (checksAfterPath s i) = some .liveMutation := by
  have hlive := checkLive_fail hf
  cases i
  case setFn k _ a =>
    cases hi
    rw [checksAfterPath, checkKind_pass (hk k a rfl), hlive, firstFailing_none, firstFailing_some]
  case clr | setAddr | setOpt | setTrap | setDpl | setPres => rw [checksAfterPath, hlive, firstFailing_some]
  all_goals cases hm

/-- A mutating entry command whose path and kind checks pass aborts with 10 while `if_in` is 1. -/
theorem exec_mutating_live {i : Instr} {p : Path} {v : Vec} {s : State} (hm : i.op.commandClass = .mutating)
    (hi : i.slot? = some (p, v)) (hw : i.wellFormed = true) (ha : s.aborted = false) (hp : checkPath p v = none)
    (hk : ∀ k a, i = .setFn p k v a → kindOf v = some k) (hf : s.ifIn = true) :
    exec i s = .next (s.abort .liveMutation) := by
  obtain ⟨done, hrun, -⟩ := exec_entry s hi hw
  rw [hrun, runCommand_pass hp]
  exact runCommand_fails ha (checksAfterPath_live hm hi hk hf)

/-- The pipeline itself does not read `if_in`; only a check can. -/
theorem runCommand_ifIn {s t u : State} {cs : List (Option AbortCode)} (b : Bool)
    (h : runCommand s cs t = .next u) :
    runCommand { s with ifIn := b } cs { t with ifIn := b } = .next { u with ifIn := b } :=
  runCommand_map (fun x => { x with ifIn := b }) rfl (fun _ => rfl) h

/-- No reading entry command has a check or a write that reads `if_in`. -/
theorem exec_reading_ifIn {i : Instr} {s t : State} (b : Bool) (hr : i.op.commandClass = .reading)
    (h : exec i s = .next t) : exec i { s with ifIn := b } = .next { t with ifIn := b } := by
  cases i
  case getEnt | getAddr | getOpt | getTrap | getDpl | getPres =>
    -- The pipeline is found in `h`; looking for it in the goal first is slow.
    have hrun := runCommand_ifIn b h
    exact hrun
  all_goals cases hr

/-- LIDT and PUBLISH abort with 13 while `if_in` is 1, once their privilege and publish-once checks pass. -/
theorem exec_idtrLoad_live {i : Instr} {s : State} (hl : i.op.commandClass = .idtrLoad) (ha : s.aborted = false)
    (hc : s.cplIn = 0) (hp : s.published = false) (hf : s.ifIn = true) :
    exec i s = .next (s.abort .ifSetAtLoad) := by
  have hfirst : firstFailing [checkPrivilege s, checkUnpublished s, checkLoadWindow s] = some .ifSetAtLoad := by
    rw [checkPrivilege_pass hc, checkUnpublished_pass hp, checkLoadWindow_fail hf]
    rfl
  cases i
  case lidt | publish => exact runCommand_fails ha hfirst
  all_goals cases hl

/-- Settles O21: one lemma for each command class. -/
theorem mutationNeedsInterruptsOff : Obligations.MutationNeedsInterruptsOff :=
  ⟨fun _ _ _ _ => exec_mutating_live, fun _ _ _ b => exec_reading_ifIn b, fun _ _ => exec_idtrLoad_live⟩

end Sys2Proof.Machine
end

section
/-! The three results of a gate read (spec/43_table_access.md R163): the limit test, then the index of the address from
IDT_BASE, which is a slot's, `8v`, or no slot's. -/

namespace Sys2Proof.Machine

/-- The distance of the address a gate read computes from IDT_BASE, modulo 2^32 (R132, R163). -/
def gateIndex (s : State) (g : Vec) : Nat :=
  ((s.idtr.base.toNat + 8 * g.toNat) % 2 ^ 32 + 2 ^ 32 - Config.idtBase.toNat) % 2 ^ 32

/-- It is the index `gateRead` tests: wrapping the address first loses nothing. -/
theorem gateIndex_eq (s : State) (g : Vec) :
    (s.idtr.base + BitVec.ofNat 32 (8 * g.toNat) - Config.idtBase).toNat = gateIndex s g := by
  have hb := Config.idtBase.isLt
  rw [gateIndex_toNat, gateIndex]
  omega

/-- The slots' indices are the multiples of 8 up to 2040. -/
theorem slotIndex_iff (d : Nat) : d ≤ 2040 ∧ d % 8 = 0 ↔ ∃ v : Vec, d = 8 * v.toNat := by
  constructor
  · rintro ⟨hle, hmod⟩
    refine ⟨BitVec.ofNat 8 (d / 8), ?_⟩
    rw [BitVec.toNat_ofNat]
    omega
  · rintro ⟨v, rfl⟩
    have hv := v.isLt
    omega

/-- A slot's index leads back to its vector. -/
theorem vec_of_slotIndex (v : Vec) : BitVec.ofNat 8 (8 * v.toNat / 8) = v := by
  rw [Nat.mul_div_cancel_left _ (by decide), BitVec.ofNat_toNat, BitVec.setWidth_eq]

theorem gateRead_outOfLimit {s : State} {g : Vec} (h : s.idtr.limit.toNat < 8 * g.toNat + 7) :
    gateRead s g = .outOfLimit := if_pos h

/-- Within the limit the index alone decides. -/
theorem gateRead_inLimit {s : State} {g : Vec} (h : 8 * g.toNat + 7 ≤ s.idtr.limit.toNat) :
    gateRead s g = if gateIndex s g ≤ 2040 ∧ gateIndex s g % 8 = 0 then
      .entry (s.ent (BitVec.ofNat 8 (gateIndex s g / 8))) else .notServed := by
  rw [gateRead, if_neg (Nat.not_lt.mpr h)]
  simp only [gateIndex_eq]

theorem gateRead_slot {s : State} {g v : Vec} (h : 8 * g.toNat + 7 ≤ s.idtr.limit.toNat)
    (hv : gateIndex s g = 8 * v.toNat) : gateRead s g = .entry (s.ent v) := by
  rw [gateRead_inLimit h, if_pos ((slotIndex_iff _).mpr ⟨v, hv⟩), hv, vec_of_slotIndex]

theorem gateRead_noSlot {s : State} {g : Vec} (h : 8 * g.toNat + 7 ≤ s.idtr.limit.toNat)
    (hv : ∀ v : Vec, gateIndex s g ≠ 8 * v.toNat) : gateRead s g = .notServed := by
  rw [gateRead_inLimit h, if_neg]
  intro hslot
  obtain ⟨v, hd⟩ := (slotIndex_iff _).mp hslot
  exact hv v hd

/-- Through the IDTR that PUBLISH loads the index of vector g is that of slot g. -/
theorem gateIndex_published {s : State} (g : Vec) (h : s.idtr = publishedIdtr) : gateIndex s g = 8 * g.toNat := by
  have hbase : s.idtr.base = Config.idtBase := congrArg Idtr.base h
  have hb := Config.idtBase.isLt
  have hg := g.isLt
  rw [gateIndex, hbase]
  omega

/-- No vector is beyond the limit that PUBLISH loads. -/
theorem inLimit_published {s : State} (g : Vec) (h : s.idtr = publishedIdtr) :
    8 * g.toNat + 7 ≤ s.idtr.limit.toNat := by
  have hlimit : s.idtr.limit.toNat = 2047 := by rw [h]; rfl
  have hg := g.isLt
  omega

/-- Settles O52: the limit test, the two cases of the index, the published IDTR, and the step, which reads the IDTR and
the table that the inputs are no part of. -/
theorem gateReadResult : Obligations.GateReadResult := by
  refine fun s g => ⟨gateRead_outOfLimit, fun hin a d ha hd => ?_, fun hpub => ?_, fun rest hi => ?_⟩
  · subst ha hd
    exact ⟨fun v => gateRead_slot hin, gateRead_noSlot hin⟩
  · exact gateRead_slot (inLimit_published g hpub) (gateIndex_published g hpub)
  · have hread : gateRead (s.setInputs rest) g = gateRead s g := gateRead_congr rfl rfl
    rw [step_cons hi, ← hread]
    rfl

end Sys2Proof.Machine
end

section
/-! What PUBLISH reads (spec/44_idtr_load.md R173): its checks read `cpl_in`, PUBLISHED and `if_in`, and its writes are
constants. -/

namespace Sys2Proof.Machine

/-- The checks of PUBLISH, in the order of R171. -/
def publishChecks (s : State) : List (Option AbortCode) :=
  [checkPrivilege s, checkUnpublished s, checkLoadWindow s]

/-- They read nothing but the three inputs. -/
theorem publishChecks_congr {s s' : State} (hcpl : s.cplIn = s'.cplIn) (hpub : s.published = s'.published)
    (hif : s.ifIn = s'.ifIn) : publishChecks s = publishChecks s' := by
  simp only [publishChecks, checkPrivilege, checkUnpublished, checkLoadWindow, hcpl, hpub, hif]

theorem exec_publish_fails {s : State} {c : AbortCode} (hs : s.aborted = false)
    (hc : firstFailing (publishChecks s) = some c) : exec .publish s = .next (s.abort c) :=
  runCommand_fails hs hc

theorem exec_publish_done {s : State} (hs : s.aborted = false) (hc : firstFailing (publishChecks s) = none) :
    exec .publish s = .next ((s.setIdtr publishedIdtr).markPublished) :=
  runCommand_done hs hc

/-- Settles O36: the same check decides in both states; if it fails, both abort with its code, else both load the
constants. -/
theorem publishReadsNoSlot : Obligations.PublishReadsNoSlot := by
  intro s s' t t' hs hs' hcpl hpub hif ht ht'
  have hchecks := publishChecks_congr hcpl hpub hif
  cases hc : firstFailing (publishChecks s) with
  | some c =>
    rw [exec_publish_fails hs hc] at ht
    rw [exec_publish_fails hs' (hchecks ▸ hc)] at ht'
    cases ht
    cases ht'
    simp [hpub]
  | none =>
    rw [exec_publish_done hs hc] at ht
    rw [exec_publish_done hs' (hchecks ▸ hc)] at ht'
    cases ht
    cases ht'
    simp [hs, hs']

end Sys2Proof.Machine
end

section
/-! What a reset leaves, and what only a reset clears (spec/70_reset_and_hazards.md R240). -/

namespace Sys2Proof.Machine

/-- The block's state as R240 lists it, with IDTR the draw of the given number (log 2). -/
def AtResetValues (draw : Nat) (t : State) : Prop :=
  (∀ v : Vec, t.ent v = 0x00000E0000000000 ∧ t.hvBit v = false) ∧ t.published = false ∧ t.aborted = false ∧
    t.err = 0 ∧ t.rdata = 0 ∧ t.idtr = { limit := Config.idtrResetLimit draw, base := Config.idtrResetBase draw }

/-- Where the HV register is 0 no vector has a handler. -/
theorem State.hvBit_of_hv_zero {s : State} (h : s.hv = 0) (v : Vec) : s.hvBit v = false := by
  rw [State.hvBit, h]
  exact BitVec.getLsbD_zero

theorem State.reset_atResetValues : AtResetValues 0 State.reset :=
  ⟨fun v => ⟨State.ent_reset v, State.hvBit_of_hv_zero rfl v⟩, rfl, rfl, rfl, rfl, rfl⟩

theorem State.resetBlock_atResetValues (s : State) : AtResetValues s.draws s.resetBlock :=
  ⟨fun v => ⟨State.ent_resetBlock v, State.hvBit_of_hv_zero s.resetBlock_hv v⟩, s.resetBlock_published,
    s.resetBlock_aborted, s.resetBlock_err, s.resetBlock_rdata, rfl⟩

/-- A performed command leaves PUBLISHED at 1: the loads are performed only at 0 (R170, R171), the others do not write
it. -/
theorem Done.published {i : Instr} {s t : State} (h : Done s t i) (hs : s.published = true) : t.published = true := by
  cases i
  case lidt | publish =>
    obtain ⟨-, hunpublished, -⟩ := h
    rw [hs] at hunpublished
    cases hunpublished
  all_goals
    simp only [Done] at h
    simp [h, hs]

/-- A presented word leaves PUBLISHED at 1, whether it is discarded, aborts or is performed. -/
theorem presentWord_published {w : DWord} {s t : State} (h : presentWord w s = .next t) (hs : s.published = true) :
    t.published = true := by
  rcases presentWord_cases h with ⟨-, rfl⟩ | ⟨-, c, rfl⟩ | ⟨-, i, -, hd⟩
  · exact hs
  · rw [State.abort_published, hs]
  · exact hd.published hs

/-- A step that takes PUBLISHED from 1 to 0 performs a reset. -/
theorem step_clears_published {s t : State} (h : step s = .next t) (hs : s.published = true)
    (ht : t.published = false) : ∃ rest, s.inputs = .reset :: rest := by
  rcases step_cases h with ⟨⟨-, -, -, hkept, -⟩, -⟩ | ⟨w, rest, -, hw⟩ | ⟨rest, hi, -⟩
  · rw [hkept, hs] at ht
    cases ht
  · rw [presentWord_published hw hs] at ht
    cases ht
  · exact ⟨rest, hi⟩

/-- Settles O44: the values a reset leaves and those of the state after reset, and the two bits only a reset clears. -/
theorem resetSetsEveryElement : Obligations.ResetSetsEveryElement := by
  obtain ⟨hslots, hpub, habort, herr, hrdata, hidtr⟩ := State.reset_atResetValues
  refine ⟨fun s rest hi => ?_, hslots, hpub, habort, herr, hrdata, ⟨0, hidtr⟩, fun s t h hcleared => ?_⟩
  · obtain ⟨hslots, hpub, habort, herr, hrdata, hidtr⟩ := (s.setInputs rest).resetBlock_atResetValues
    exact ⟨_, step_cons hi, fun v => (hslots v).1, fun v => (hslots v).2, hpub, habort, herr, hrdata, ⟨_, hidtr⟩⟩
  · have hreset : ∃ rest, s.inputs = .reset :: rest := by
      rcases hcleared with ⟨hs, ht⟩ | ⟨hs, ht⟩
      · exact step_clears_aborted h hs ht
      · exact step_clears_published h hs ht
    obtain ⟨rest, hi⟩ := hreset
    rw [hi, List.head?_cons]

end Sys2Proof.Machine
end

section
/-! The command word decoded and encoded (spec/30_encoding.md R88 to R94): what a legal word's fields are, said once for
all 15 operations, from which both round trips and the rows of the opcode table follow. -/

namespace Sys2Proof

/-- The fields that the operation does not use are zero (R92). -/
def unusedZero (f : Fields) : Op → Bool
  | .setAddr => f.k = 0 && f.aux = 0
  | .setFn => f.aux = 0
  | .setOpt => f.k = 0 && f.data = 0
  | .setTrap | .setPres => f.k = 0 && auxBitOnly f.aux && f.data = 0
  | .setDpl => f.k = 0 && auxPairOnly f.aux && f.data = 0
  | .clr | .getEnt | .getAddr | .getOpt | .getTrap | .getDpl | .getPres => f.k = 0 && f.aux = 0 && f.data = 0
  | .lidt => f.n = 0 && f.k = 0 && f.vec = 0
  | .publish => f.n = 0 && f.k = 0 && f.vec = 0 && f.aux = 0 && f.data = 0

/-- The command whose operands are the operation's used fields (R90). -/
def commandOf (f : Fields) : Op → Instr
  | .clr => .clr (pathOfBit f.n) f.vec
  | .setAddr => .setAddr (pathOfBit f.n) f.vec f.data
  | .setFn => .setFn (pathOfBit f.n) (kindOfCode f.k) f.vec f.data
  | .setOpt => .setOpt (pathOfBit f.n) f.vec f.aux
  | .setTrap => .setTrap (pathOfBit f.n) f.vec f.aux
  | .setDpl => .setDpl (pathOfBit f.n) f.vec f.aux
  | .setPres => .setPres (pathOfBit f.n) f.vec f.aux
  | .getEnt => .getEnt (pathOfBit f.n) f.vec
  | .getAddr => .getAddr (pathOfBit f.n) f.vec
  | .getOpt => .getOpt (pathOfBit f.n) f.vec
  | .getTrap => .getTrap (pathOfBit f.n) f.vec
  | .getDpl => .getDpl (pathOfBit f.n) f.vec
  | .getPres => .getPres (pathOfBit f.n) f.vec
  | .lidt => .lidt f.aux f.data
  | .publish => .publish

/-- The fields are those of a legal word of the operation (R88, R92). -/
def LegalFields (f : Fields) (o : Op) : Prop := f.op = o.code ∧ f.r = 0 ∧ unusedZero f o = true

/-- Which fields decode to which command. -/
theorem decodeFields_eq_ok {f : Fields} {i : Instr} :
    decodeFields f = .ok i ↔ ∃ o, LegalFields f o ∧ commandOf f o = i := by
  have hr : f.r = 1#1 ∨ f.r = 0 := by generalize f.r = r; revert r; decide
  constructor
  · intro h
    unfold decodeFields at h
    split at h
    · cases h
    · next o ho =>
      rcases hr with hr | hr
      · rw [if_pos hr] at h
        cases h
      · rw [if_neg (by rw [hr]; decide)] at h
        refine ⟨o, ?_⟩
        cases o <;> exact ((accept_eq_ok _ _ _).mp h).imp_left fun hz => ⟨(code_of_opOfCode ho).symm, hr, hz⟩
  · rintro ⟨o, ⟨ho, hr, hz⟩, rfl⟩
    unfold decodeFields
    rw [ho, opOfCode_code]
    cases o <;> exact (if_neg (by rw [hr]; decide)).trans ((accept_eq_ok _ _ _).mpr ⟨hz, rfl⟩)

/-- The fields that a well-formed command is encoded with are legal, and hold its operands. -/
theorem legalFields_encodeFields {i : Instr} (hw : i.wellFormed = true) :
    LegalFields (encodeFields i) i.op ∧ commandOf (encodeFields i) i.op = i := by
  cases i
  case setTrap | setPres =>
    have hbit := (auxBitOnly_iff _).mpr hw
    exact ⟨⟨rfl, rfl, by simpa [unusedZero, encodeFields, entryFields, Instr.op] using hbit⟩,
      by simp [commandOf, encodeFields, entryFields, Instr.op]⟩
  case setDpl =>
    have hpair := (auxPairOnly_iff _).mpr hw
    exact ⟨⟨rfl, rfl, by simpa [unusedZero, encodeFields, entryFields, Instr.op] using hpair⟩,
      by simp [commandOf, encodeFields, entryFields, Instr.op]⟩
  all_goals
    exact ⟨⟨rfl, rfl, rfl⟩, by simp [commandOf, encodeFields, entryFields, idtrFields, Instr.op]⟩

/-- The command of legal fields is well-formed, and is encoded with those fields. -/
theorem encodeFields_commandOf {f : Fields} {o : Op} (h : LegalFields f o) :
    (commandOf f o).wellFormed = true ∧ encodeFields (commandOf f o) = f := by
  obtain ⟨op, n, k, r, vec, aux, data⟩ := f
  obtain ⟨hop, hr, hz⟩ := h
  dsimp only at hop hr
  subst hop hr
  cases o
  all_goals
    simp [unusedZero] at hz
    simp [commandOf, encodeFields, entryFields, idtrFields, Instr.wellFormed, ← auxBitOnly_iff, ← auxPairOnly_iff, hz]

end Sys2Proof

namespace Sys2Proof.Machine

theorem decode_encode {i : Instr} (hw : i.wellFormed = true) : decode (encode i) = .ok i := by
  rw [decode, fieldsOf_encode, decodeFields_eq_ok]
  exact ⟨i.op, legalFields_encodeFields hw⟩

/-- Settles O2: a well-formed command is encoded with the fields of a legal word, and their command is the one encoded. -/
theorem decodeOfEncode : Obligations.DecodeOfEncode := fun _ => decode_encode

theorem encode_of_decode {w : DWord} {i : Instr} (h : decode w = .ok i) : i.wellFormed = true ∧ encode i = w := by
  obtain ⟨o, hlegal, rfl⟩ := decodeFields_eq_ok.mp h
  obtain ⟨hw, hfields⟩ := encodeFields_commandOf hlegal
  exact ⟨hw, by rw [encode, hfields, word_fieldsOf]⟩

/-- Settles O3: the command of legal fields is well-formed and is encoded with all of them. -/
theorem encodeOfDecode : Obligations.EncodeOfDecode := fun _ _ => encode_of_decode

/-! ### The rows of the opcode table -/

/-- The fields' bitwise AND. -/
def andFields (f g : Fields) : Fields :=
  { op := f.op &&& g.op, n := f.n &&& g.n, k := f.k &&& g.k, r := f.r &&& g.r, vec := f.vec &&& g.vec,
    aux := f.aux &&& g.aux, data := f.data &&& g.data }

theorem fieldsOf_and (w m : DWord) : fieldsOf (w &&& m) = andFields (fieldsOf w) (fieldsOf m) := by
  simp only [fieldsOf, andFields, BitVec.extractLsb'_and]

/-- The bits of a word from bit k up are zero exactly when the mask of those bits takes all of it away. -/
theorem and_highMask_eq_zero (x : Half) (k : Nat) :
    x &&& (BitVec.allOnes 16 <<< k) = 0 ↔ x.extractLsb' k (16 - k) = 0 := by
  simp only [BitVec.eq_of_getLsbD_eq_iff, BitVec.getLsbD_and, BitVec.getLsbD_shiftLeft, BitVec.getLsbD_allOnes,
    BitVec.getLsbD_extractLsb', BitVec.ofNat_eq_ofNat, BitVec.getLsbD_zero]
  constructor
  · intro h i hi
    have hbit := h (k + i) (by omega)
    simp_all only [show k + i < 16 by omega, show ¬ k + i < k by omega, show k + i - k < 16 by omega, decide_true,
      decide_false, Bool.not_false, Bool.and_true, Bool.true_and]
  · intro h i hi
    by_cases hk : k ≤ i
    · have hbit := h (i - k) (by omega)
      simp_all only [show i - k < 16 - k by omega, show k + (i - k) = i by omega, decide_true, Bool.true_and,
        Bool.false_and]
    · simp [show i < k by omega]

theorem and_bitMask (aux : Half) : aux &&& 0xFFFE = 0 ↔ auxBitOnly aux = true := by
  rw [auxBitOnly, decide_eq_true_eq]
  exact and_highMask_eq_zero aux 1

theorem and_pairMask (aux : Half) : aux &&& 0xFFFC = 0 ↔ auxPairOnly aux = true := by
  rw [auxPairOnly, decide_eq_true_eq]
  exact and_highMask_eq_zero aux 2

/-- The fields of an operation's mask: OP, R and every field that a legal word of it must hold zero (R92). -/
def maskFields : Op → Fields
  | .setAddr => { op := 0xF, n := 0, k := 3, r := 1, vec := 0, aux := 0xFFFF, data := 0 }
  | .setFn => { op := 0xF, n := 0, k := 0, r := 1, vec := 0, aux := 0xFFFF, data := 0 }
  | .setOpt => { op := 0xF, n := 0, k := 3, r := 1, vec := 0, aux := 0, data := 0xFFFFFFFF }
  | .setTrap | .setPres => { op := 0xF, n := 0, k := 3, r := 1, vec := 0, aux := 0xFFFE, data := 0xFFFFFFFF }
  | .setDpl => { op := 0xF, n := 0, k := 3, r := 1, vec := 0, aux := 0xFFFC, data := 0xFFFFFFFF }
  | .clr | .getEnt | .getAddr | .getOpt | .getTrap | .getDpl | .getPres =>
    { op := 0xF, n := 0, k := 3, r := 1, vec := 0, aux := 0xFFFF, data := 0xFFFFFFFF }
  | .lidt => { op := 0xF, n := 1, k := 3, r := 1, vec := 0xFF, aux := 0, data := 0 }
  | .publish => { op := 0xF, n := 1, k := 3, r := 1, vec := 0xFF, aux := 0xFFFF, data := 0xFFFFFFFF }

theorem fieldsOf_mask (o : Op) : fieldsOf o.mask = maskFields o := by
  cases o <;> decide

theorem fieldsOf_matchValue (o : Op) :
    fieldsOf o.matchValue = { op := o.code, n := 0, k := 0, r := 0, vec := 0, aux := 0, data := 0 } := by
  cases o <;> decide

theorem and_full {n : Nat} (x : BitVec n) {m : BitVec n} (h : m = BitVec.allOnes n) : x &&& m = x := by
  rw [h, BitVec.and_allOnes]

/-- The mask takes exactly the unused fields. -/
theorem unusedZero_iff (f : Fields) (o : Op) :
    unusedZero f o = true ↔ f.n &&& (maskFields o).n = 0 ∧ f.k &&& (maskFields o).k = 0 ∧
      f.vec &&& (maskFields o).vec = 0 ∧ f.aux &&& (maskFields o).aux = 0 ∧ f.data &&& (maskFields o).data = 0 := by
  have hzero {n : Nat} (x : BitVec n) : x &&& 0 = 0 := BitVec.and_zero
  have hn : f.n &&& 1 = f.n := and_full _ (by decide)
  have hk : f.k &&& 3 = f.k := and_full _ (by decide)
  have hvec : f.vec &&& 0xFF = f.vec := and_full _ (by decide)
  have haux : f.aux &&& 0xFFFF = f.aux := and_full _ (by decide)
  have hdata : f.data &&& 0xFFFFFFFF = f.data := and_full _ (by decide)
  cases o <;>
    simp only [unusedZero, maskFields, hzero, hn, hk, hvec, haux, hdata, and_bitMask, and_pairMask, Bool.and_eq_true,
      decide_eq_true_eq, true_and, and_true, and_assoc]

/-- A word matches the row of an operation exactly when its fields are legal for it: every mask holds OP and R whole. -/
theorem matchesWord_iff {w : DWord} {o : Op} : o.matchesWord w = true ↔ LegalFields (fieldsOf w) o := by
  have hinj : w &&& o.mask = o.matchValue ↔ fieldsOf (w &&& o.mask) = fieldsOf o.matchValue :=
    ⟨congrArg _, fun h => by rw [← word_fieldsOf (w &&& o.mask), h, word_fieldsOf]⟩
  have hop : (maskFields o).op = BitVec.allOnes 4 := by cases o <;> rfl
  have hr : (maskFields o).r = BitVec.allOnes 1 := by cases o <;> rfl
  rw [Op.matchesWord, decide_eq_true_eq, hinj, fieldsOf_and, fieldsOf_mask, fieldsOf_matchValue, LegalFields,
    unusedZero_iff, andFields, Fields.mk.injEq, and_full _ hop, and_full _ hr]
  tauto

/-- Settles O4: being the word of some command and matching some row are both having legal fields. -/
theorem legalIffRowMatches : Obligations.LegalIffRowMatches := by
  intro w
  constructor
  · rintro ⟨i, h⟩
    obtain ⟨o, hlegal, -⟩ := decodeFields_eq_ok.mp h
    exact ⟨o, matchesWord_iff.mpr hlegal⟩
  · rintro ⟨o, h⟩
    exact ⟨_, decodeFields_eq_ok.mpr ⟨o, matchesWord_iff.mp h, rfl⟩⟩

theorem code_inj {o o' : Op} (h : o.code = o'.code) : o = o' := by
  have hop := opOfCode_code o
  rw [h, opOfCode_code] at hop
  exact (Option.some.inj hop).symm

/-- Settles O5: a row fixes the word's OP field, and no two operations have one code. -/
theorem rowsDoNotOverlap : Obligations.RowsDoNotOverlap := by
  intro w o o' h h'
  obtain ⟨hcode, -⟩ := matchesWord_iff.mp h
  obtain ⟨hcode', -⟩ := matchesWord_iff.mp h'
  exact code_inj (hcode.symm.trans hcode')

/-! ### Assembly -/

/-- The model's range check is R95's ranges. -/
theorem lineRanges_iff (l : AsmLine) : l.inRange = true ↔ lineRanges l := by
  cases l
  case publish => exact iff_of_true rfl trivial
  all_goals
    simp only [AsmLine.inRange, lineRanges, vecInRange, halfInRange, wordInRange, Bool.and_eq_true, decide_eq_true_eq]
    omega

theorem expand_eq (l : AsmLine) : l.expand = lineCommands l := by
  cases l <;> rfl

/-- A bit or a DPL in its range sets no unused bit of AUX, and no other operand has one. -/
theorem expand_wellFormed {l : AsmLine} (h : lineRanges l) : l.expand.all Instr.wellFormed = true := by
  have haux {n b : Nat} (hn : n ≤ b) (hb : b < 2 ^ 16) : (BitVec.ofNat 16 n).toNat < b + 1 := by
    rw [BitVec.toNat_ofNat]
    omega
  cases l
  case setTrap | setPres => simpa [AsmLine.expand, Instr.wellFormed, auxIsBit] using haux h.2 (by decide)
  case setDpl => simpa [AsmLine.expand, Instr.wellFormed, auxIsPair] using haux h.2 (by decide)
  all_goals rfl

/-- A line in range assembles to words that decode to its commands. -/
theorem assemble_decodes {l : AsmLine} (h : l.inRange = true) :
    ∃ ws, assemble l = some ws ∧ ws.map decode = l.expand.map Except.ok := by
  have hwf := List.all_eq_true.mp (expand_wellFormed ((lineRanges_iff l).mp h))
  refine ⟨l.expand.map encode, if_pos h, ?_⟩
  rw [List.map_map]
  exact List.map_congr_left fun i hi => decode_encode (hwf i hi)

theorem assemble_error {l : AsmLine} (h : l.inRange = false) : assemble l = none := by
  rw [assemble, h, if_neg Bool.false_ne_true]

/-- Settles O6: the model's range check and expansion are the ones written out, and a line's commands are well-formed, so
that each decodes from its word (`decode_encode`). -/
theorem assembledWordsDecode : Obligations.AssembledWordsDecode := by
  intro l
  refine ⟨fun h => ?_, fun h => ?_, lineRanges_iff l, expand_eq l, assemble_decodes, assemble_error⟩
  · rw [← expand_eq]
    exact assemble_decodes ((lineRanges_iff l).mpr h)
  · exact assemble_error (Bool.eq_false_iff.mpr (mt (lineRanges_iff l).mp h))

end Sys2Proof.Machine
end

section
/-! The disassembly read back (spec/30_encoding.md R95, R97): the digits of a number, the mnemonic, the path, the vector and
the operands of a line are each told from the text. -/

namespace Sys2Proof.Machine

/-! ### Reading printed numbers back -/

/-- The value of a digit in base 16 or 10. -/
def digitValue (c : Char) : Nat := (List.range 16).findIdx (fun d => digitChar d = c)

theorem digitValue_digitChar {d : Nat} (h : d < 16) : digitValue (digitChar d) = d := by
  have hall : ∀ d < 16, digitValue (digitChar d) = d := by decide
  exact hall d h

/-- The number that a string of digits writes in a base. -/
def readDigits (base : Nat) (ds : List Char) : Nat := ds.foldl (fun n c => base * n + digitValue c) 0

theorem readDigits_hexDigits {n x : Nat} (h : x < 16 ^ n) : readDigits 16 (hexDigits n x) = x := by
  induction n generalizing x with
  | zero => exact (Nat.lt_one_iff.mp h).symm
  | succ n ih =>
    have hhigh : readDigits 16 (hexDigits n (x / 16)) = x / 16 := ih (by rw [Nat.pow_succ] at h; omega)
    unfold readDigits at hhigh ⊢
    rw [hexDigits, List.foldl_append, hhigh, List.foldl_cons, List.foldl_nil,
      digitValue_digitChar (Nat.mod_lt x (by decide))]
    omega

theorem readDigits_decText {x : Nat} (h : x < 1000) : readDigits 10 (decText x) = x := by
  unfold readDigits decText
  split
  · simp [digitValue_digitChar (show x < 16 by omega)]
  · split
    · simp [digitValue_digitChar (show x / 10 < 16 by omega), digitValue_digitChar (show x % 10 < 16 by omega)]
      omega
    · simp [digitValue_digitChar (show x / 100 < 16 by omega), digitValue_digitChar (show x / 10 % 10 < 16 by omega),
        digitValue_digitChar (show x % 10 < 16 by omega)]
      omega

theorem hexText_inj {n : Nat} {x y : BitVec (4 * n)} (h : hexText n x.toNat = hexText n y.toNat) : x = y := by
  have hlt (z : BitVec (4 * n)) : z.toNat < 16 ^ n := Nat.pow_mul 2 4 n ▸ z.isLt
  have hdigits : hexDigits n x.toNat = hexDigits n y.toNat := by simpa [hexText] using h
  apply BitVec.eq_of_toNat_eq
  rw [← readDigits_hexDigits (hlt x), hdigits, readDigits_hexDigits (hlt y)]

theorem decText_inj {x y : Nat} (hx : x < 1000) (hy : y < 1000) (h : decText x = decText y) : x = y := by
  rw [← readDigits_decText hx, h, readDigits_decText hy]

/-! ### Splitting a line of assembly -/

/-- Two texts of characters of one sort, each followed by something that does not begin with that sort, are told apart
from what follows them. -/
theorem append_inj_of_head {p : Char → Bool} {a b x y : List Char} (ha : a.all p = true) (hb : b.all p = true)
    (hx : x.head?.any p = false) (hy : y.head?.any p = false) (h : a ++ x = b ++ y) : a = b ∧ x = y := by
  have htake {a x : List Char} (ha : a.all p = true) (hx : x.head?.any p = false) : (a ++ x).takeWhile p = a := by
    have hnil : x.takeWhile p = [] := by
      cases x with
      | nil => rfl
      | cons c x => simpa [List.takeWhile_cons] using hx
    rw [List.takeWhile_append_of_pos (List.all_eq_true.mp ha), hnil, List.append_nil]
  have hab : a = b := by rw [← htake ha hx, h, htake hb hy]
  subst hab
  exact ⟨rfl, List.append_cancel_left h⟩

theorem decText_noComma (x : Nat) : (decText x).all (· ≠ ',') = true := by
  have hdigit (d : Nat) : digitChar d ≠ ',' := by
    unfold digitChar
    split <;> decide
  unfold decText
  split_ifs <;> simp [hdigit]

/-- Behind the vector stands nothing, or a comma. -/
theorem entryText_inj {o : Op} {p q : Path} {v u : Vec} {x y : List Char} (hx : x.head?.any (· ≠ ',') = false)
    (hy : y.head?.any (· ≠ ',') = false) (h : entryText o p v ++ x = entryText o q u ++ y) :
    p = q ∧ v = u ∧ x = y := by
  simp only [entryText, List.append_assoc, List.append_cancel_left_eq, List.cons_append] at h
  have hpath : p = q := by cases p <;> cases q <;> simp [pathText] at h ⊢
  subst hpath
  simp only [List.cons.injEq, List.append_cancel_left_eq, true_and] at h
  obtain ⟨hvec, hrest⟩ := append_inj_of_head (decText_noComma _) (decText_noComma _) hx hy h
  have hlt (w : Vec) : w.toNat < 1000 := by have := w.isLt; omega
  exact ⟨rfl, BitVec.eq_of_toNat_eq (decText_inj (hlt v) (hlt u) hvec), hrest⟩

theorem opText_inj {o o' : Op} (h : opText o = opText o') : o = o' := by
  have hmem (o : Op) : o ∈ allOps := by cases o <;> decide
  exact List.inj_on_of_nodup_map (by decide : (allOps.map opText).Nodup) (hmem o) (hmem o') h

/-- A line begins with its mnemonic, and what follows it is no capital letter. -/
theorem instrText_mnemonic (i : Instr) :
    ∃ x : List Char, instrText i = opText i.op ++ x ∧ x.head?.any Char.isUpper = false := by
  cases i
  all_goals simp only [instrText, entryText, List.append_assoc]
  case publish => exact ⟨[], (List.append_nil _).symm, rfl⟩
  all_goals exact ⟨_, rfl, rfl⟩

theorem op_of_instrText {i j : Instr} (h : instrText i = instrText j) : i.op = j.op := by
  have hupper (o : Op) : (opText o).all Char.isUpper = true := by cases o <;> decide
  obtain ⟨x, hi, hx⟩ := instrText_mnemonic i
  obtain ⟨y, hj, hy⟩ := instrText_mnemonic j
  rw [hi, hj] at h
  exact opText_inj (append_inj_of_head (hupper _) (hupper _) hx hy h).1

theorem kindText_inj {k l : HandlerKind} (h : kindText k = kindText l) : k = l := by
  cases k <;> cases l <;> simp [kindText] at h ⊢

theorem operandText_inj {x y : List Char} (h : operandText x = operandText y) : x = y := by
  simpa [operandText] using h

theorem wordOperand_inj {a b : Word} (h : operandText (hexText 8 a.toNat) = operandText (hexText 8 b.toNat)) : a = b :=
  hexText_inj (n := 8) (operandText_inj h)

theorem halfOperand_inj {a b : Half} (h : operandText (hexText 4 a.toNat) = operandText (hexText 4 b.toNat)) : a = b :=
  hexText_inj (n := 4) (operandText_inj h)

theorem auxOperand_inj {a b : Half} (ha : a.toNat < 1000) (hb : b.toNat < 1000)
    (h : operandText (decText a.toNat) = operandText (decText b.toNat)) : a = b :=
  BitVec.eq_of_toNat_eq (decText_inj ha hb (operandText_inj h))

theorem kindOperand_inj {k l : HandlerKind} {x y : List Char}
    (h : operandText (kindText k) ++ operandText x = operandText (kindText l) ++ operandText y) : k = l ∧ x = y := by
  have hkind (k : HandlerKind) : (kindText k).all (· ≠ ',') = true := by cases k <;> decide
  simp only [operandText, List.cons_append, List.cons.injEq, true_and] at h
  obtain ⟨hk, hx⟩ := append_inj_of_head (hkind k) (hkind l) rfl rfl h
  exact ⟨kindText_inj hk, by simpa using hx⟩

/-- A bit or a DPL has one digit. -/
theorem aux_lt_of_wellFormed {aux : Half} (h : auxIsBit aux = true ∨ auxIsPair aux = true) : aux.toNat < 1000 := by
  simp only [auxIsBit, auxIsPair, decide_eq_true_eq] at h
  omega

/-- Well-formed commands that print alike are the same: the mnemonics agree, then the path and the vector, then the
operands. -/
theorem instrText_inj {i j : Instr} (hi : i.wellFormed = true) (hj : j.wellFormed = true)
    (h : instrText i = instrText j) : i = j := by
  have hop := op_of_instrText h
  have entry {o : Op} {p q : Path} {v u : Vec} (h : entryText o p v = entryText o q u) : p = q ∧ v = u := by
    obtain ⟨hp, hv, -⟩ := entryText_inj (x := []) (y := []) rfl rfl (by simpa using h)
    exact ⟨hp, hv⟩
  cases i <;> cases j <;> cases hop
  case setAddr.setAddr =>
    obtain ⟨rfl, rfl, ha⟩ := entryText_inj rfl rfl h
    rw [wordOperand_inj ha]
  case setFn.setFn =>
    simp only [instrText, List.append_assoc] at h
    obtain ⟨rfl, rfl, hka⟩ := entryText_inj rfl rfl h
    obtain ⟨rfl, ha⟩ := kindOperand_inj hka
    rw [hexText_inj (n := 8) ha]
  case setOpt.setOpt =>
    obtain ⟨rfl, rfl, hw⟩ := entryText_inj rfl rfl h
    rw [halfOperand_inj hw]
  case setTrap.setTrap | setPres.setPres =>
    obtain ⟨rfl, rfl, haux⟩ := entryText_inj rfl rfl h
    rw [auxOperand_inj (aux_lt_of_wellFormed (.inl hi)) (aux_lt_of_wellFormed (.inl hj)) haux]
  case setDpl.setDpl =>
    obtain ⟨rfl, rfl, haux⟩ := entryText_inj rfl rfl h
    rw [auxOperand_inj (aux_lt_of_wellFormed (.inr hi)) (aux_lt_of_wellFormed (.inr hj)) haux]
  case lidt.lidt =>
    simp only [instrText, List.append_assoc, List.append_cancel_left_eq, List.cons_append, List.cons.injEq,
      true_and] at h
    obtain ⟨hl, hb⟩ := List.append_inj h rfl
    rw [hexText_inj (n := 4) hl, wordOperand_inj hb]
  case publish.publish => rfl
  all_goals
    obtain ⟨rfl, rfl⟩ := entry h
    rfl

theorem disassemble_legal {w : DWord} {i : Instr} (h : decode w = .ok i) : disassemble w = instrText i := by
  rw [disassemble, h]

/-- Settles O7: the words' commands print alike, so they are one command, and a legal word is its command's word
(`encode_of_decode`). -/
theorem legalWordsPrintApart : Obligations.LegalWordsPrintApart := by
  intro w x i j hi hj h
  obtain ⟨hwi, hei⟩ := encode_of_decode hi
  obtain ⟨hwj, hej⟩ := encode_of_decode hj
  rw [disassemble_legal hi, disassemble_legal hj] at h
  rw [← hei, ← hej, instrText_inj hwi hwj h]

end Sys2Proof.Machine
end

section
/-! Words written out in the spec: the test vectors of spec/95_test_vectors.md and the option words of
spec/30_encoding.md R86. -/

namespace Sys2Proof.Machine

/-- Settles O1: each word is decoded. -/
theorem specWordsDecode : Obligations.SpecWordsDecode := by
  unfold Obligations.SpecWordsDecode
  decide

/-- A field of an option word, as a number. -/
theorem field_toNat (w : Half) (lo n : Nat) : (w.extractLsb' lo n).toNat = w.toNat / 2 ^ lo % 2 ^ n := by
  rw [BitVec.extractLsb'_toNat, Nat.shiftRight_eq_div_pow]

theorem bit_toNat (w : Half) (i : Nat) : (w.getLsbD i).toNat = w.toNat / 2 ^ i % 2 := Nat.toNat_testBit _ _

/-- The fixed columns of R24, as numbers. -/
theorem optLegal_iff (w : Half) :
    optLegal w = true ↔ w.toNat / 2 ^ 9 % 2 ^ 3 = 7 ∧ w.toNat / 2 ^ 12 % 2 = 0 ∧ w.toNat % 2 ^ 8 = 0 := by
  simp only [optLegal, optKeepsMustBeOne, optKeepsReserved, optMustBeOne, optReservedHigh, optReservedLow,
    Bool.and_eq_true, decide_eq_true_eq, ← BitVec.toNat_inj, field_toNat, Nat.pow_zero, Nat.div_one]
  rfl

/-- Settles O10: a word is the sum of its fields, and the fixed ones of a legal word sum up to 0x0E00. -/
theorem sixteenLegalOptionWords : Obligations.SixteenLegalOptionWords := by
  intro w
  rw [optLegal_iff]
  have hw := w.isLt
  constructor
  · intro hfixed
    refine ⟨optPresent w, optDpl w, optTrap w, ?_⟩
    rw [optPresent, optDpl, optTrap, bit_toNat, bit_toNat, field_toNat]
    omega
  · rintro ⟨present, dpl, trap, hsum⟩
    have hp := present.toNat_lt
    have ht := trap.toNat_lt
    have hd := dpl.isLt
    omega

end Sys2Proof.Machine
end

section
/-! What a step does with each input (spec/00_scope.md R9; spec/30_encoding.md R80, R92). -/

namespace Sys2Proof.Machine

theorem presentWord_legal {w : DWord} {i : Instr} (h : decode w = .ok i) (s : State) : presentWord w s = exec i s := by
  simp only [presentWord, h]

theorem presentWord_illegal {w : DWord} {e : DecodeError} (h : decode w = .error e) (s : State) :
    presentWord w s = runCommand s [some .illegalCommand] s := by
  simp only [presentWord, h]

/-- Settles O12: the first input is served, and a legal word is its command. -/
theorem stepPerformsDecodedCommand : Obligations.StepPerformsDecodedCommand :=
  fun _ _ _ _ hi hd => (step_cons hi).trans (presentWord_legal hd _)

/-- The decoder on a word of the table reads the word that `withFetchWord` presents. -/
theorem decode_tableCommand {n w : Nat} {i : Instr} (h : decodeTableWord n w = some i) :
    decode (tableCommand n w) = .ok i := by
  unfold decodeTableWord at h
  unfold tableCommand
  split at h
  · next j hj =>
    cases h
    exact hj
  · cases h

/-- Settles O13: the placed word is the first input, and taking it off gives the state before. -/
theorem placedWordRunsNext : Obligations.PlacedWordRunsNext :=
  fun s w _ h => (step_cons (s := s.withFetchWord 64 w) rfl).trans (presentWord_legal (decode_tableCommand h) s)

/-- Settles O14: the one check of an illegal word fails. -/
theorem illegalWordAborts : Obligations.IllegalWordAborts := by
  intro s w e rest hi hd ha
  rw [step_cons hi]
  exact (presentWord_illegal hd _).trans (runCommand_fails (s := s.setInputs rest) ha (firstFailing_some _ _))

/-- The pipeline answers a next state whatever the checks say. -/
theorem runCommand_completes (s : State) (cs : List (Option AbortCode)) (done : State) :
    ∃ t, runCommand s cs done = .next t := by
  cases ha : s.aborted with
  | true => exact ⟨s, runCommand_aborted ha⟩
  | false =>
    cases hc : firstFailing cs with
    | some c => exact ⟨s.abort c, runCommand_fails ha hc⟩
    | none => exact ⟨done, runCommand_done ha hc⟩

/-- Every command is one use of the pipeline. -/
theorem exec_completes (i : Instr) (s : State) : ∃ t, exec i s = .next t := by
  cases i <;> exact runCommand_completes _ _ _

theorem presentWord_completes (w : DWord) (s : State) : ∃ t, presentWord w s = .next t := by
  cases hd : decode w with
  | ok i => rw [presentWord_legal hd]; exact exec_completes i s
  | error e => rw [presentWord_illegal hd]; exact runCommand_completes _ _ _

/-- Settles O15: legal or not, a word goes through the pipeline once. -/
theorem everyCommandCompletes : Obligations.EveryCommandCompletes := presentWord_completes

/-- A byte outside `[IDT_BASE, IDT_BASE + 2047]` has no table index: IDT_BASE leaves no room for the window to wrap. -/
theorem windowIndex_outside {a : Word} (h : a.toNat < Config.idtBase.toNat ∨ Config.idtBase.toNat + 2047 < a.toNat) :
    windowIndex a 1 = none := by
  have hb := idtBase_le
  have ha := a.isLt
  have hoff : ¬ (a - Config.idtBase).toNat + 1 ≤ 2048 := by
    rw [BitVec.toNat_sub]
    omega
  rw [windowIndex, if_neg hoff]

theorem storeFromOutside_outside {a : Word} (s : State) (h : windowIndex a 1 = none) :
    storeFromOutside a s = .next s := by
  simp only [storeFromOutside, h]

theorem step_nil {s : State} (h : s.inputs = []) : step s = .next s := by
  simp only [step, serveNext, h]

/-- Settles O60: one input each, from the state with it taken off. -/
theorem stepServesTrapsReturnsAndPins : Obligations.StepServesTrapsReturnsAndPins :=
  ⟨fun _ _ _ hi => step_cons hi, fun _ _ hi => step_cons hi, fun _ _ _ _ _ hi => step_cons hi,
    fun _ _ _ _ hi ha => (step_cons hi).trans (storeFromOutside_outside _ (windowIndex_outside ha)),
    fun _ => step_nil⟩

end Sys2Proof.Machine
end

section
/-! What one step can do to the block and what a performed command does to a slot, each said once; the induction over a run;
and from them the freeze after an abort (spec/40_command_execution.md R122). -/

namespace Sys2Proof.Machine

/-! ### One step -/

/-- Everything a step can do to the block: nothing, the abort of a presented word, the writes of a presented command, or a
reset. -/
theorem step_events {s t : State} (h : step s = .next t) :
    (SameBlock s t ∧ ∃ k, t.inputs = s.inputs.drop k) ∨
      (∃ w rest c, s.inputs = .command w :: rest ∧ s.aborted = false ∧ t = (s.setInputs rest).abort c) ∨
      (∃ w rest i, s.inputs = .command w :: rest ∧ s.aborted = false ∧ decode w = .ok i ∧
        Done (s.setInputs rest) t i) ∨
      (∃ rest, s.inputs = .reset :: rest ∧ t = (s.setInputs rest).resetBlock) := by
  rcases step_cases h with hsame | ⟨w, rest, hi, hw⟩ | hreset
  · exact .inl hsame
  · rcases presentWord_cases hw with ⟨-, rfl⟩ | ⟨ha, c, ht⟩ | ⟨ha, i, hd, hdone⟩
    · exact .inl ⟨⟨rfl, rfl, rfl, rfl, rfl, rfl, rfl⟩, 1, by rw [hi]; rfl⟩
    · exact .inr (.inl ⟨w, rest, c, hi, ha, ht⟩)
    · exact .inr (.inr (.inl ⟨w, rest, i, hi, ha, hd, hdone⟩))
  · exact .inr (.inr (.inr hreset))

/-- A property of the block that an abort, a performed command and a reset keep is kept by every step. -/
theorem step_keeps {P : State → Prop} (same : ∀ s t, SameBlock s t → P s → P t)
    (abort : ∀ s c, P s → P (s.abort c)) (done : ∀ s t i, Done s t i → P s → P t) (reset : ∀ s : State, P s.resetBlock)
    {s t : State} (h : step s = .next t) (hs : P s) : P t := by
  have inputs (rest : List Input) : P (s.setInputs rest) := same s _ ⟨rfl, rfl, rfl, rfl, rfl, rfl, rfl⟩ hs
  rcases step_events h with ⟨hsame, -⟩ | ⟨w, rest, c, -, -, rfl⟩ | ⟨w, rest, i, -, -, -, hdone⟩ | ⟨rest, -, rfl⟩
  · exact same s t hsame hs
  · exact abort _ c (inputs rest)
  · exact done _ t i hdone (inputs rest)
  · exact reset _

/-! ### A run -/

/-- A run that answers answers in every step. -/
theorem run_succ_cases {k : Nat} {s t : State} (h : Host.Core.run core (k + 1) s = .next t) :
    ∃ u, step s = .next u ∧ Host.Core.run core k u = .next t := by
  cases hu : step s with
  | next u => exact ⟨u, rfl, run_succ hu ▸ h⟩
  | fault r =>
    have hcore : core.step s = .fault r := hu
    simp [Host.Core.run, hcore] at h
  | refused r =>
    have hcore : core.step s = .refused r := hu
    simp [Host.Core.run, hcore] at h

/-- What every step keeps, every run keeps. -/
theorem run_keeps {P : State → Prop} (hstep : ∀ s t, P s → step s = .next t → P t) {k : Nat} {s t : State}
    (h : Host.Core.run core k s = .next t) (hs : P s) : P t := by
  induction k generalizing s with
  | zero =>
    cases h
    exact hs
  | succ k ih =>
    obtain ⟨u, hu, hrest⟩ := run_succ_cases h
    exact ih hrest (hstep s u hs hu)

/-! ### The freeze -/

theorem SameBlock.refl (s : State) : SameBlock s s := ⟨rfl, rfl, rfl, rfl, rfl, rfl, rfl⟩

theorem SameBlock.trans {s t u : State} (h : SameBlock s t) (h' : SameBlock t u) : SameBlock s u :=
  outcome_eq_iff.mp ((outcome_eq_iff.mpr h').trans (outcome_eq_iff.mpr h))

theorem SameBlock.aborted {s t : State} (h : SameBlock s t) : t.aborted = s.aborted := by
  obtain ⟨-, -, -, -, ha, -⟩ := h
  exact ha

/-- From an aborted state with no reset waiting, a step leaves the block, and no reset waits after it either. -/
theorem step_frozen {s t : State} (ha : s.aborted = true) (hr : Input.reset ∉ s.inputs) (h : step s = .next t) :
    SameBlock s t ∧ Input.reset ∉ t.inputs := by
  have live {P : Prop} (hf : s.aborted = false) : P := by
    rw [ha] at hf
    cases hf
  rcases step_events h with ⟨hsame, k, hk⟩ | ⟨w, rest, c, -, hf, -⟩ | ⟨w, rest, i, -, hf, -⟩ | ⟨rest, hi, -⟩
  · exact ⟨hsame, fun hm => hr (List.mem_of_mem_drop (hk ▸ hm))⟩
  · exact live hf
  · exact live hf
  · exact absurd (hi ▸ List.mem_cons_self) hr

/-- Settles O17: by induction over the run, the block is that of the first state and still no reset waits. -/
theorem abortFreezesBlockUntilReset : Obligations.AbortFreezesBlockUntilReset := by
  intro k s t ha hr h
  have hkept : SameBlock s t ∧ Input.reset ∉ t.inputs := by
    refine run_keeps (P := fun u => SameBlock s u ∧ Input.reset ∉ u.inputs) (fun u w hu hstep => ?_) h ⟨.refl s, hr⟩
    obtain ⟨hsame, hwaiting⟩ := hu
    obtain ⟨hsame', hwaiting'⟩ := step_frozen (hsame.aborted.trans ha) hwaiting hstep
    exact ⟨hsame.trans hsame', hwaiting'⟩
  obtain ⟨⟨htbl, hhv, hidtr, hpub, habort, herr, hrdata⟩, -⟩ := hkept
  exact ⟨htbl, hhv, hidtr, hpub, habort.trans ha, herr, hrdata⟩

end Sys2Proof.Machine
end

section
/-! The block's invariant (spec/10_state.md R24, R29; spec/40_command_execution.md R129; spec/41_entry_encoding.md R144;
spec/44_idtr_load.md R172), and who writes which element of the block. -/

namespace Sys2Proof.Machine

/-! ### What a performed command does to a slot and to IDTR -/

/-- What a slot is after a performed command. -/
inductive SlotAfter (s t : State) (i : Instr) (v : Vec) : Prop
  /-- The command leaves the slot. -/
  | same (he : t.ent v = s.ent v) (hh : t.hvBit v = s.hvBit v)
  /-- CLR of the slot (R140). -/
  | cleared {p : Path} (hslot : i.slot? = some (p, v)) (hpath : checkPath p v = none)
      (hop : i.op ∈ [Op.clr, Op.setAddr, Op.setFn]) (he : t.ent v = defaultEntry) (hh : t.hvBit v = false)
  /-- SETADDR or SETFN of the slot (R141, R142). -/
  | installed {p : Path} {a : Word} (hslot : i.slot? = some (p, v)) (hpath : checkPath p v = none)
      (hop : i.op ∈ [Op.clr, Op.setAddr, Op.setFn])
      (he : t.ent v = packEntry (addrMid a) installedOpt s.csIn (addrLow a)) (hh : t.hvBit v = true)
  /-- SETOPT, SETTRAP, SETDPL or SETPRES of the slot (R143, R150 to R152): the word stays legal, and is present only with a
  handler or where it was. -/
  | optioned {p : Path} {w : Half} (hslot : i.slot? = some (p, v)) (hpath : checkPath p v = none)
      (he : t.ent v = entWithOpt (s.ent v) w) (hh : t.hvBit v = s.hvBit v)
      (hlegal : optLegal (s.opt v) = true → optLegal w = true)
      (hpresent : optPresent w = true → s.hvBit v = true ∨ optPresent (s.opt v) = true)

/-- CLR's writes clear their slot and leave the others. -/
theorem SlotAfter.of_clear {i : Instr} {p : Path} {u : Vec} {s : State} (hs : s.tableCanonical)
    (hslot : i.slot? = some (p, u)) (hpath : checkPath p u = none) (hop : i.op ∈ [Op.clr, Op.setAddr, Op.setFn])
    (v : Vec) : SlotAfter s ((s.setEnt u defaultEntry).setHv u false) i v := by
  by_cases hv : v = u
  · subst hv
    exact .cleared hslot hpath hop (State.ent_setEnt_self hs) (by rw [State.hvBit_setHv, if_pos rfl])
  · exact .same (State.ent_setEnt_other hs hv) (by rw [State.hvBit_setHv, if_neg hv, State.hvBit_setEnt])

/-- The writes of SETADDR and SETFN install their slot and leave the others. -/
theorem SlotAfter.of_install {i : Instr} {p : Path} {u : Vec} {a : Word} {s : State} (hs : s.tableCanonical)
    (hslot : i.slot? = some (p, u)) (hpath : checkPath p u = none) (hop : i.op ∈ [Op.clr, Op.setAddr, Op.setFn])
    (v : Vec) : SlotAfter s (s.install u a) i v := by
  by_cases hv : v = u
  · subst hv
    exact .installed hslot hpath hop (by rw [State.ent_install hs, if_pos rfl])
      (by rw [State.hvBit_install, if_pos rfl])
  · exact .same (by rw [State.ent_install hs, if_neg hv]) (by rw [State.hvBit_install, if_neg hv])

/-- The store of an option word changes the word of its slot and leaves the others. -/
theorem SlotAfter.of_setOpt {i : Instr} {p : Path} {u : Vec} {w : Half} {s : State} (hs : s.tableCanonical)
    (hslot : i.slot? = some (p, u)) (hpath : checkPath p u = none)
    (hlegal : optLegal (s.opt u) = true → optLegal w = true)
    (hpresent : optPresent w = true → s.hvBit u = true ∨ optPresent (s.opt u) = true) (v : Vec) :
    SlotAfter s (s.setOpt u w) i v := by
  by_cases hv : v = u
  · subst hv
    exact .optioned hslot hpath (State.ent_setEnt_self hs) State.hvBit_setOpt hlegal hpresent
  · exact .same (State.ent_setEnt_other hs hv) State.hvBit_setOpt

/-- Every command clears, installs, or sets the option word of the slot it names, or leaves all slots. -/
theorem Done.slotAfter {i : Instr} {s t : State} (h : Done s t i) (hs : s.tableCanonical) (v : Vec) :
    SlotAfter s t i v := by
  cases i
  case clr =>
    obtain ⟨hpath, -, rfl⟩ := h
    exact .of_clear hs rfl hpath (by simp [Instr.op]) v
  case setAddr =>
    obtain ⟨hpath, -, rfl⟩ := h
    exact .of_install hs rfl hpath (by simp [Instr.op]) v
  case setFn =>
    obtain ⟨hpath, -, -, rfl⟩ := h
    exact .of_install hs rfl hpath (by simp [Instr.op]) v
  case setOpt =>
    obtain ⟨hpath, -, hw, hhandler, rfl⟩ := h
    exact .of_setOpt hs rfl hpath (fun _ => hw) (fun hp => .inl (hhandler hp)) v
  case setTrap =>
    obtain ⟨-, hpath, -, rfl⟩ := h
    exact .of_setOpt hs rfl hpath (by rw [optLegal_setTrap]; exact id) (by rw [optPresent_setTrap]; exact .inr) v
  case setDpl =>
    obtain ⟨-, hpath, -, rfl⟩ := h
    exact .of_setOpt hs rfl hpath (by rw [optLegal_setDpl]; exact id) (by rw [optPresent_setDpl]; exact .inr) v
  case setPres =>
    obtain ⟨-, hpath, -, hhandler, rfl⟩ := h
    exact .of_setOpt hs rfl hpath (by rw [optLegal_setPresent]; exact id)
      (by rw [optPresent_setPresent]; exact fun hp => .inl (hhandler hp)) v
  case lidt =>
    obtain ⟨-, -, -, rfl⟩ := h
    exact .same State.ent_setIdtr State.hvBit_setIdtr
  case publish =>
    obtain ⟨-, -, -, rfl⟩ := h
    exact .same State.ent_markPublished State.hvBit_markPublished
  all_goals
    obtain ⟨-, rfl⟩ := h
    exact .same State.ent_setRdata State.hvBit_setRdata

/-- IDTR and PUBLISHED are written by LIDT and PUBLISH alone, while PUBLISHED is 0; only PUBLISH sets it. -/
theorem Done.load {i : Instr} {s t : State} (h : Done s t i) :
    SameLoad s t ∨ (s.published = false ∧ i.op.commandClass = .idtrLoad ∧
      (t.published = true → i = .publish ∧ t.idtr = publishedIdtr)) := by
  cases i
  case lidt limit base =>
    obtain ⟨-, hpub, -, rfl⟩ := h
    exact .inr ⟨hpub, rfl, fun ht => by rw [State.setIdtr_published, hpub] at ht; cases ht⟩
  case publish =>
    obtain ⟨-, hpub, -, rfl⟩ := h
    exact .inr ⟨hpub, rfl, fun _ => ⟨rfl, rfl⟩⟩
  all_goals
    simp only [Done] at h
    exact .inl (by simp [h, SameLoad])

/-! ### Each part of the invariant -/

theorem SameBlock.canonical {s t : State} (h : SameBlock s t) (hs : s.tableCanonical) : t.tableCanonical :=
  (congrArg Memory.wf h.1).trans hs

theorem SameBlock.opt {s t : State} (h : SameBlock s t) (v : Vec) : t.opt v = s.opt v := congrArg entOpt (h.ent v)

theorem SameBlock.hvBit {s t : State} (h : SameBlock s t) (v : Vec) : t.hvBit v = s.hvBit v := by
  obtain ⟨-, hhv, -⟩ := h
  rw [State.hvBit, hhv, State.hvBit]

/-- Settles O45: no slot is written but through `setEnt`, and a reset empties the list. -/
theorem stepKeepsTableCanonical : Obligations.StepKeepsTableCanonical :=
  fun _ _ hs h => step_keeps (fun _ _ hsame => hsame.canonical) (fun _ _ => id) (fun _ _ _ hdone => hdone.canonical)
    (fun _ => State.reset_canonical) h hs

/-- Every option word a performed command leaves is legal. -/
theorem Done.optionsLegal {i : Instr} {s t : State} (h : Done s t i) (hs : s.tableCanonical) (hl : s.optionsLegal) :
    t.optionsLegal := by
  intro v
  unfold State.opt
  cases h.slotAfter hs v with
  | same he _ => rw [he]; exact hl v
  | cleared _ _ _ he _ => rw [he]; exact optLegal_default
  | installed _ _ _ he _ => rw [he, entOpt_pack]; exact optLegal_installed
  | optioned _ _ he _ hlegal _ => rw [he, entOpt_withOpt]; exact hlegal (hl v)

theorem State.opt_resetBlock (s : State) (v : Vec) : s.resetBlock.opt v = entOpt defaultEntry :=
  congrArg entOpt (State.ent_resetBlock v)

/-- Settles O46: each way a slot's option word can come about gives a legal one. -/
theorem stepKeepsHardwiredOptionBits : Obligations.StepKeepsHardwiredOptionBits := by
  intro s t hs hl h
  have hboth : t.tableCanonical ∧ t.optionsLegal :=
    step_keeps (P := fun u => u.tableCanonical ∧ u.optionsLegal)
      (fun _ _ hsame hu => ⟨hsame.canonical hu.1, fun v => by rw [hsame.opt]; exact hu.2 v⟩) (fun _ _ => id)
      (fun _ _ _ hdone hu => ⟨hdone.canonical hu.1, hdone.optionsLegal hu.1 hu.2⟩)
      (fun u => ⟨State.reset_canonical, fun v => by rw [State.opt_resetBlock]; exact optLegal_default⟩) h ⟨hs, hl⟩
  exact hboth.2

/-- A present gate has a handler: P is set only with one, and only CLR takes it away. -/
theorem Done.presentInstalled {i : Instr} {s t : State} (h : Done s t i) (hs : s.tableCanonical)
    (hp : s.presentInstalled) : t.presentInstalled := by
  intro v hv
  unfold State.opt at hv
  cases h.slotAfter hs v with
  | same he hh => rw [hh]; exact hp v (by rwa [he] at hv)
  | cleared _ _ _ he _ =>
    rw [he, optPresent_default] at hv
    cases hv
  | installed _ _ _ _ hh => exact hh
  | optioned _ _ he hh _ hpresent =>
    rw [he, entOpt_withOpt] at hv
    rw [hh]
    exact (hpresent hv).elim id (hp v)

/-- Neither path accepts a reserved vector (R125, R127). -/
theorem checkPath_reserved {p : Path} {v : Vec} (h : classOf v = .reserved) : checkPath p v ≠ none := by
  have hmem : v.toNat ∈ reservedVectors := by
    by_contra hn
    rw [classOf, if_neg hn] at h
    split at h <;> cases h
  cases p with
  | indexed => rw [checkPath, checkIndexed, kindOf, if_pos hmem]; nofun
  | named =>
    have hnot : ∀ n ∈ reservedVectors, n ∉ namedVectors := by decide
    rw [checkPath, checkNamed, if_neg (hnot _ hmem)]
    nofun

/-- A performed command leaves the slots of reserved vectors. -/
theorem Done.reservedAbsent {i : Instr} {s t : State} (h : Done s t i) (hs : s.tableCanonical)
    (hr : s.reservedAbsent) : t.reservedAbsent := by
  intro v hv
  cases h.slotAfter hs v with
  | same he _ => unfold State.opt; rw [he]; exact hr v hv
  | cleared _ hpath _ _ _ => exact absurd hpath (checkPath_reserved hv)
  | installed _ hpath _ _ _ => exact absurd hpath (checkPath_reserved hv)
  | optioned _ hpath _ _ _ _ => exact absurd hpath (checkPath_reserved hv)

theorem Done.publishedTable {i : Instr} {s t : State} (h : Done s t i) (hs : s.publishedTable) : t.publishedTable := by
  intro ht
  rcases h.load with ⟨hidtr, hpub⟩ | ⟨-, -, hload⟩
  · rw [hidtr]
    exact hs (hpub.symm.trans ht)
  · exact (hload ht).2

theorem Done.errConsistent {i : Instr} {s t : State} (h : Done s t i) (hs : s.errConsistent) : t.errConsistent := by
  unfold State.errConsistent at hs ⊢
  rw [h.aborted, h.err]
  exact hs

/-- The codes are 1 to 13 (R200). -/
theorem State.abort_errConsistent (s : State) (c : AbortCode) : (s.abort c).errConsistent := by
  rw [State.errConsistent, if_pos (State.abort_aborted s c), State.abort_err]
  cases c <;> decide

/-! ### The invariant -/

theorem Done.inv {i : Instr} {s t : State} (h : Done s t i) (hs : s.Inv) : t.Inv where
  tableCanonical := h.canonical hs.tableCanonical
  optionsLegal := h.optionsLegal hs.tableCanonical hs.optionsLegal
  presentInstalled := h.presentInstalled hs.tableCanonical hs.presentInstalled
  reservedAbsent := h.reservedAbsent hs.tableCanonical hs.reservedAbsent
  publishedTable := h.publishedTable hs.publishedTable
  errConsistent := h.errConsistent hs.errConsistent

theorem SameBlock.inv {s t : State} (h : SameBlock s t) (hs : s.Inv) : t.Inv := by
  have hopt := h.opt
  have hhv := h.hvBit
  have hcanonical := h.canonical hs.tableCanonical
  obtain ⟨-, -, hidtr, hpub, habort, herr, -⟩ := h
  obtain ⟨-, hlegal, hinstalled, hreserved, htable, herr'⟩ := hs
  refine ⟨hcanonical, fun v => ?_, fun v hv => ?_, fun v hv => ?_, fun ht => ?_, ?_⟩
  · rw [hopt]; exact hlegal v
  · rw [hhv]; exact hinstalled v (hopt v ▸ hv)
  · rw [hopt]; exact hreserved v hv
  · rw [hidtr]; exact htable (hpub ▸ ht)
  · unfold State.errConsistent; rw [habort, herr]; exact herr'

theorem State.abort_inv {s : State} (c : AbortCode) (hs : s.Inv) : (s.abort c).Inv :=
  ⟨hs.tableCanonical, hs.optionsLegal, hs.presentInstalled, hs.reservedAbsent, hs.publishedTable,
    s.abort_errConsistent c⟩

/-- At reset values every slot is the default entry, absent, and nothing is published or aborted. -/
theorem AtResetValues.inv {n : Nat} {t : State} (h : AtResetValues n t) (hc : t.tableCanonical) : t.Inv := by
  obtain ⟨hslots, hpub, habort, herr, -, -⟩ := h
  have hopt (v : Vec) : t.opt v = entOpt defaultEntry := congrArg entOpt (hslots v).1
  have habsent (v : Vec) : optPresent (t.opt v) = false := by rw [hopt]; exact optPresent_default
  refine ⟨hc, fun v => ?_, fun v hv => ?_, fun v _ => habsent v, fun ht => ?_, ?_⟩
  · rw [hopt]; exact optLegal_default
  · rw [habsent] at hv; cases hv
  · rw [hpub] at ht; cases ht
  · rw [State.errConsistent, if_neg (by rw [habort]; exact Bool.false_ne_true)]; exact herr

theorem step_inv {s t : State} (hs : s.Inv) (h : step s = .next t) : t.Inv :=
  step_keeps (fun _ _ hsame => hsame.inv) (fun _ c => State.abort_inv c) (fun _ _ _ hdone => hdone.inv)
    (fun u => u.resetBlock_atResetValues.inv State.reset_canonical) h hs

/-- Settles O47: a step leaves the block, aborts, performs a command or resets, and each keeps the invariant. -/
theorem stepKeepsBlockInvariant : Obligations.StepKeepsBlockInvariant := fun _ _ => step_inv

/-- Settles O48: the state after reset is at the reset values. -/
theorem resetMeetsBlockInvariant : Obligations.ResetMeetsBlockInvariant :=
  State.reset_atResetValues.inv State.reset_canonical

/-- The vectors written out in R124 are the reserved class. -/
theorem classOf_reserved {v : Vec} (h : v.toNat ∈ reservedVectors) : classOf v = .reserved := if_pos h

/-- The fields of the option word are the bits of the entry that gate decode reads. -/
theorem optPresent_entOpt (e : DWord) : optPresent (entOpt e) = e.getLsbD 47 :=
  (congrArg Gate.present (decodeGate_eq e)).symm

theorem optDpl_entOpt (e : DWord) : optDpl (entOpt e) = e.extractLsb' 45 2 :=
  (congrArg Gate.dpl (decodeGate_eq e)).symm

theorem optTrap_entOpt (e : DWord) : optTrap (entOpt e) = e.getLsbD 40 :=
  (congrArg Gate.trapGate (decodeGate_eq e)).symm

/-- Settles O49: the invariant holds at launch and every step keeps it, so it holds at the end of every run. -/
theorem reservedVectorsAbsentOnEveryRun : Obligations.ReservedVectorsAbsentOnEveryRun := by
  intro cs inputs k t h v hv
  have hlaunch : (launchState cs inputs).Inv :=
    SameBlock.inv (s := State.reset) ⟨rfl, rfl, rfl, rfl, rfl, rfl, rfl⟩ resetMeetsBlockInvariant
  have hinv : t.Inv := run_keeps (fun _ _ => step_inv) h hlaunch
  rw [← optPresent_entOpt]
  exact hinv.reservedAbsent v (classOf_reserved hv)

/-! ### Who writes what -/

/-- Settles O50: by the four things a step can do to the block; of the performed commands only the two loads write IDTR and
PUBLISHED (`Done.load`). -/
theorem whoWritesStatusAndIdtr : Obligations.WhoWritesStatusAndIdtr := by
  intro s t h
  rcases step_events h with ⟨hsame, -⟩ | ⟨w, rest, c, hi, ha, rfl⟩ | ⟨w, rest, i, hi, ha, hd, hdone⟩ | ⟨rest, hi, rfl⟩
  · -- Every element is as before.
    obtain ⟨htbl, hhv, hidtr, hpub, habort, herr, hrdata⟩ := hsame
    simp_all [SameLoad, SameAbort]
  · -- A command is waiting, and only ABORTED and ERR change.
    simp_all
  · -- A command is waiting, and ABORTED and ERR do not change.
    have habort := hdone.aborted
    have herr := hdone.err
    rcases hdone.load with ⟨hidtr, hpub⟩ | ⟨hpub, hclass, hload⟩
    · simp_all
    · simp_all
  · -- A reset is waiting, and afterwards ABORTED and PUBLISHED are 0.
    simp_all

/-- Settles O51: a step from a canonical table that is no reset leaves a slot's address, selector and handler bit, unless
it performs a command that clears or installs the slot (`Done.slotAfter`). -/
theorem whoWritesAddressesAndHandlerBits : Obligations.WhoWritesAddressesAndHandlerBits := by
  intro s t v hs h hne
  rcases step_events h with ⟨hsame, -⟩ | ⟨w, rest, c, hi, ha, rfl⟩ | ⟨w, rest, i, hi, ha, hd, hdone⟩ | ⟨rest, hi, rfl⟩
  · rw [hsame.ent, hsame.hvBit] at hne
    simp at hne
  · simp at hne
  · have named {p : Path} (hslot : i.slot? = some (p, v)) (hop : i.op ∈ [Op.clr, Op.setAddr, Op.setFn]) :
        s.inputs.head? = some .reset ∨ ∃ w i p, s.inputs.head? = some (.command w) ∧ decode w = .ok i ∧
          i.slot? = some (p, v) ∧ i.op ∈ [Op.clr, Op.setAddr, Op.setFn] :=
      .inr ⟨w, i, p, by rw [hi, List.head?_cons], hd, hslot, hop⟩
    cases hdone.slotAfter (s := s.setInputs rest) hs v with
    | same he hh =>
      rw [he, hh] at hne
      simp at hne
    | cleared hslot _ hop _ _ => exact named hslot hop
    | installed hslot _ hop _ _ => exact named hslot hop
    | optioned _ _ he hh _ _ =>
      rw [he, hh] at hne
      simp at hne
  · exact .inl (by rw [hi, List.head?_cons])

end Sys2Proof.Machine
end

section
/-! Performing a command forwards: which checks decide, and the state its writes leave (spec/40_command_execution.md R121). -/

namespace Sys2Proof.Machine

/-- `Done` says all that a command needs: an unaborted command whose checks pass answers the state of its writes. -/
theorem exec_done {i : Instr} {s t : State} (ha : s.aborted = false) (h : Done s t i) : exec i s = .next t := by
  have run {cs : List (Option AbortCode)} {u : State} (hcs : ∀ c ∈ cs, c = none) (hu : t = u) :
      runCommand s cs u = .next t := hu ▸ runCommand_done ha (firstFailing_eq_none.mpr hcs)
  cases i
  all_goals
    simp only [Done, optLegal, Bool.and_eq_true] at h
    refine run ?_ (by tauto)
    simp only [List.forall_mem_cons, checkLive_eq_none, checkKind_eq_none, checkHandler_eq_none, checkAuxBit,
      checkAuxPair, checkMustBeOne, checkReservedBits, checkPrivilege_eq_none, checkUnpublished_eq_none,
      checkLoadWindow_eq_none, require_eq_none]
    have hnil : ∀ c ∈ ([] : List (Option AbortCode)), c = none := nofun
    tauto

theorem exec_aborted {i : Instr} {s : State} (ha : s.aborted = true) : exec i s = .next s := by
  cases i <;> exact runCommand_aborted ha

/-- Where no abort stands after a command, none stood before and the command was performed. -/
theorem exec_unaborted {i : Instr} {s t : State} (h : exec i s = .next t) (ht : t.aborted = false) :
    s.aborted = false ∧ Done s t i := by
  rcases exec_cases h with ⟨ha, rfl⟩ | ⟨-, c, rfl⟩ | hdone
  · rw [ha] at ht
    cases ht
  · cases ht
  · exact hdone

/-- An entry command's path check decides first. -/
theorem exec_pathFails {i : Instr} {p : Path} {v : Vec} {c : AbortCode} {s : State} (hi : i.slot? = some (p, v))
    (hw : i.wellFormed = true) (ha : s.aborted = false) (hc : checkPath p v = some c) :
    exec i s = .next (s.abort c) := by
  obtain ⟨done, hrun, -⟩ := exec_entry s hi hw
  rw [hrun, hc]
  exact runCommand_fails ha (firstFailing_some c _)

/-- Behind a path check that passes, the first of the other checks to fail decides. -/
theorem exec_failsAfterPath {i : Instr} {p : Path} {v : Vec} {c : AbortCode} {s : State} (hi : i.slot? = some (p, v))
    (hw : i.wellFormed = true) (ha : s.aborted = false) (hp : checkPath p v = none)
    (hc : firstFailing (checksAfterPath s i) = some c) : exec i s = .next (s.abort c) := by
  obtain ⟨done, hrun, -⟩ := exec_entry s hi hw
  rw [hrun, runCommand_pass hp]
  exact runCommand_fails ha hc

end Sys2Proof.Machine
end

section
/-! CLR, SETADDR, SETFN and SETOPT (spec/41_entry_encoding.md), and the gate a freshly installed slot holds. -/

namespace Sys2Proof.Machine

/-- Settles O23: the writes of a CLR whose checks pass, and its two checks in order. -/
theorem clrResetsSlot : Obligations.ClrResetsSlot := by
  intro p v s ha hs
  refine ⟨fun hp hf => ⟨_, exec_done ha ⟨hp, hf, rfl⟩, ?_, ?_, ha⟩, fun c => exec_pathFails rfl rfl ha,
    fun hp => exec_mutating_live rfl rfl rfl ha hp nofun⟩
  · exact State.ent_setEnt_self hs
  · rw [State.hvBit_setHv, if_pos rfl]

/-- The installed entry, field by field (R141). -/
theorem State.ent_install_self {s : State} {v : Vec} {a : Word} (h : s.tableCanonical) :
    (s.install v a).ent v = a.extractLsb' 16 16 ++ 0x8E00#16 ++ s.csIn ++ a.extractLsb' 0 16 := by
  rw [State.ent_install h, if_pos rfl]
  rfl

theorem State.hvBit_install_self {s : State} {v : Vec} {a : Word} : (s.install v a).hvBit v = true := by
  rw [State.hvBit_install, if_pos rfl]

/-- Settles O24: the writes of a SETADDR whose checks pass, and its two checks in order. -/
theorem setAddrInstallsGate : Obligations.SetAddrInstallsGate :=
  fun _ _ _ _ ha hs =>
    ⟨fun hp hf => ⟨_, exec_done ha ⟨hp, hf, rfl⟩, State.ent_install_self hs, State.hvBit_install_self, ha⟩,
      fun _ => exec_pathFails rfl rfl ha, fun hp => exec_mutating_live rfl rfl rfl ha hp nofun⟩

/-- Settles O25: as SETADDR, with the kind check between the two. -/
theorem setFnInstallsMatchingKind : Obligations.SetFnInstallsMatchingKind := by
  intro p k v a s ha hs
  refine ⟨fun hp hk hf => ⟨_, exec_done ha ⟨hp, hk, hf, rfl⟩, State.ent_install_self hs, State.hvBit_install_self, ha⟩,
    fun c => exec_pathFails rfl rfl ha, fun hp hk => ?_, fun hp hk => ?_⟩
  · exact exec_failsAfterPath rfl rfl ha hp (by rw [checksAfterPath, checkKind_fail hk, firstFailing_some])
  · exact exec_mutating_live rfl rfl rfl ha hp fun k' a' hi => by cases hi; exact hk

/-- Settles O53: gate decode reads the fields of the installed entry. -/
theorem installedGateDecodes : Obligations.InstalledGateDecodes := by
  intro p v a s ha hs hp hf
  refine ⟨_, exec_done ha ⟨hp, hf, rfl⟩, ?_⟩
  rw [State.ent_install hs, if_pos rfl, decodeGate_eq, entAddress, entMid_pack, entLow_pack, entOpt_pack, entSel_pack,
    addrJoin_split]
  rfl

/-! ### SETOPT -/

/-- A word keeps its reserved bits exactly when bit 12 and bits 7:0 are 0. -/
theorem optKeepsReserved_iff (w : Half) :
    optKeepsReserved w = true ↔ w.getLsbD 12 = false ∧ w.extractLsb' 0 8 = 0#8 := by
  have hbit : optReservedHigh w = 0 ↔ w.getLsbD 12 = false := by
    have hfield : (optReservedHigh w).toNat = (w.getLsbD 12).toNat := (field_toNat w 12 1).trans (bit_toNat w 12).symm
    rw [← BitVec.toNat_inj, hfield]
    cases w.getLsbD 12 <;> decide
  rw [optKeepsReserved, Bool.and_eq_true, decide_eq_true_eq, decide_eq_true_eq, hbit]
  rfl

theorem State.opt_setOpt_self {s : State} {v : Vec} {w : Half} (h : s.tableCanonical) : (s.setOpt v w).opt v = w := by
  rw [State.opt, State.ent_setOpt h, if_pos rfl, entOpt_withOpt]

/-- The store of an option word keeps LOW, SEL and MID of the slot. -/
theorem State.setOpt_keeps {s : State} {v : Vec} {w : Half} (h : s.tableCanonical) :
    entLow ((s.setOpt v w).ent v) = entLow (s.ent v) ∧ entSel ((s.setOpt v w).ent v) = entSel (s.ent v) ∧
      entMid ((s.setOpt v w).ent v) = entMid (s.ent v) := by
  rw [State.ent_setOpt h, if_pos rfl, entLow_withOpt, entSel_withOpt, entMid_withOpt]
  exact ⟨rfl, rfl, rfl⟩

/-- Settles O26: a legal word passes the three checks of SETOPT and is stored. -/
theorem setOptStoresLegalWord : Obligations.SetOptStoresLegalWord := by
  intro p v w s ha hs hp hf hone hhigh hlow hhandler
  have hlegal : optLegal w = true :=
    Bool.and_eq_true _ _ ▸ ⟨decide_eq_true hone, (optKeepsReserved_iff w).mpr ⟨hhigh, hlow⟩⟩
  obtain ⟨hkeptLow, hkeptSel, hkeptMid⟩ := State.setOpt_keeps (v := v) (w := w) hs
  exact ⟨s.setOpt v w, exec_done ha ⟨hp, hf, hlegal, hhandler, rfl⟩, State.opt_setOpt_self hs, hkeptLow, hkeptSel,
    hkeptMid, State.hvBit_setOpt, ha⟩

/-- Settles O27: each refusal is the first check to fail. -/
theorem setOptRefusesInOrder : Obligations.SetOptRefusesInOrder := by
  intro p v w s ha
  have refuse {c : AbortCode} (hp : checkPath p v = none)
      (hc : firstFailing (checksAfterPath s (.setOpt p v w)) = some c) : exec (.setOpt p v w) s = .next (s.abort c) :=
    exec_failsAfterPath rfl rfl ha hp hc
  have passOne (h : w.extractLsb' 9 3 = 7#3) : checkMustBeOne w = none := require_true (decide_eq_true h)
  refine ⟨fun c => exec_pathFails rfl rfl ha, fun hp => exec_mutating_live rfl rfl rfl ha hp nofun, fun hp hf => ?_⟩
  have hlive := checkLive_pass hf
  refine ⟨fun hone => refuse (c := .mustBeOneCleared) hp ?_, fun hone hres => refuse (c := .reservedOptionBits) hp ?_,
    fun hone hhigh hlow hpres hhv => refuse (c := .presentWithoutHandler) hp ?_⟩
  · have hbad : optKeepsMustBeOne w = false := decide_eq_false hone
    rw [checksAfterPath, hlive, checkMustBeOne, require_false hbad, firstFailing_none, firstFailing_some]
  · have hbad : optKeepsReserved w = false := by
      rw [Bool.eq_false_iff, ne_eq, optKeepsReserved_iff, not_and_or, Bool.not_eq_false]
      exact hres
    rw [checksAfterPath, hlive, passOne hone, checkReservedBits, require_false hbad, firstFailing_none,
      firstFailing_none, firstFailing_some]
  · have hreserved : checkReservedBits w = none := require_true ((optKeepsReserved_iff w).mpr ⟨hhigh, hlow⟩)
    have hpresent : optPresent w = true := hpres
    rw [checksAfterPath, hlive, passOne hone, hreserved, hpresent, checkHandler_fail hhv, firstFailing_none,
      firstFailing_none, firstFailing_none, firstFailing_some]

end Sys2Proof.Machine
end

section
/-! SETTRAP, SETDPL, SETPRES and the six GET commands (spec/42_option_accessors.md, spec/43_table_access.md). -/

namespace Sys2Proof.Machine

/-- One bit of a slot after its option word is stored: bits 47:32 are the word's. -/
theorem State.ent_setOpt_bit {s : State} {v : Vec} {w : Half} (h : s.tableCanonical) (i : Nat) :
    ((s.setOpt v w).ent v).getLsbD i = if 32 ≤ i ∧ i < 48 then w.getLsbD (i - 32) else (s.ent v).getLsbD i := by
  rw [State.ent_setOpt h, if_pos rfl, entWithOpt_bit]

/-- A bit of the option word, as a bit of its entry. -/
theorem State.opt_bit {s : State} {v : Vec} {i : Nat} (h : 32 ≤ i ∧ i < 48) :
    (s.opt v).getLsbD (i - 32) = (s.ent v).getLsbD i := by
  rw [State.opt, entOpt_bit, show 32 + (i - 32) = i by omega]
  simp [show i - 32 < 16 by omega]

theorem auxBit_legal {aux : Half} (h : aux.toNat < 2) : auxBitOnly aux = true :=
  (auxBitOnly_iff aux).mpr (decide_eq_true h)

theorem auxPair_legal {aux : Half} (h : aux.toNat < 4) : auxPairOnly aux = true :=
  (auxPairOnly_iff aux).mpr (decide_eq_true h)

/-- Settles O28: bit 8 of the option word is bit 40 of the entry. -/
theorem setTrapWritesT : Obligations.SetTrapWritesT := by
  intro p v aux s ha hs
  refine ⟨fun haux hp hf => ⟨_, exec_done ha ⟨auxBit_legal haux, hp, hf, rfl⟩, ha, rfl, fun i => ?_⟩,
    fun haux => runCommand_fails ha (by rw [checkAuxBit_fail haux, firstFailing_some]),
    fun c haux => exec_pathFails rfl (decide_eq_true haux) ha,
    fun haux hp => exec_mutating_live rfl rfl (decide_eq_true haux) ha hp nofun⟩
  rw [State.ent_setOpt_bit hs, optSetTrap_bit]
  by_cases hi : 32 ≤ i ∧ i < 48
  · rw [if_pos hi, State.opt_bit hi]
    exact if_congr (by omega) rfl rfl
  · rw [if_neg hi, if_neg (by omega)]

/-- Settles O29: bits 14:13 of the option word are bits 46:45 of the entry. -/
theorem setDplWritesDpl : Obligations.SetDplWritesDpl := by
  intro p v aux s ha hs
  refine ⟨fun haux hp hf => ⟨_, exec_done ha ⟨auxPair_legal haux, hp, hf, rfl⟩, ha, rfl, fun i => ?_⟩,
    fun haux => runCommand_fails ha (by rw [checkAuxPair_fail haux, firstFailing_some]),
    fun c haux => exec_pathFails rfl (decide_eq_true haux) ha,
    fun haux hp => exec_mutating_live rfl rfl (decide_eq_true haux) ha hp nofun⟩
  rw [State.ent_setOpt_bit hs, optSetDpl_bit]
  by_cases hi : 32 ≤ i ∧ i < 48
  · rw [if_pos hi, State.opt_bit hi]
    by_cases h45 : i = 45
    · subst h45
      simp [auxPair]
    · by_cases h46 : i = 46
      · subst h46
        simp [auxPair]
      · rw [if_neg (by omega), if_neg h45, if_neg h46]
  · rw [if_neg hi, if_neg (by omega), if_neg (by omega)]

/-- An AUX of one bit is that bit. -/
theorem auxBit_iff {aux : Half} (h : aux.toNat < 2) : auxBit aux = true ↔ aux.toNat = 1 := by
  have hbit := bit_toNat aux 0
  rw [auxBit]
  cases hb : aux.getLsbD 0 <;> rw [hb] at hbit <;> simp at hbit ⊢ <;> omega

/-- Settles O30: bit 15 of the option word is bit 47 of the entry; the handler check stands last. -/
theorem setPresWritesP : Obligations.SetPresWritesP := by
  intro p v aux s ha hs
  refine ⟨fun haux hp hf hhv => ⟨_, exec_done ha ⟨auxBit_legal haux, hp, hf, fun hb => hhv ((auxBit_iff haux).mp hb),
      rfl⟩, ha, rfl, fun i => ?_⟩,
    fun haux => runCommand_fails ha (by rw [checkAuxBit_fail haux, firstFailing_some]),
    fun c haux => exec_pathFails rfl (decide_eq_true haux) ha,
    fun haux hp => exec_mutating_live rfl rfl (decide_eq_true haux) ha hp nofun, fun haux hp hf hhv => ?_⟩
  · rw [State.ent_setOpt_bit hs, optSetPresent_bit]
    by_cases hi : 32 ≤ i ∧ i < 48
    · rw [if_pos hi, State.opt_bit hi]
      exact if_congr (by omega) rfl rfl
    · rw [if_neg hi, if_neg (by omega)]
  · have haux2 : aux.toNat < 2 := by omega
    refine exec_failsAfterPath rfl (decide_eq_true haux2) ha hp ?_
    rw [checksAfterPath, checkLive_pass hf, (auxBit_iff haux2).mpr haux, checkHandler_fail hhv, firstFailing_none,
      firstFailing_some]

/-! ### The GET commands -/

theorem zext64_ofBool (b : Bool) : zext64 (BitVec.ofBool b) = if b then 1 else 0 := by
  cases b <;> rfl

/-- Zero-extension puts zeros in front. -/
theorem zext64_eq_append {m n : Nat} (x : BitVec n) (h : m + n = 64) : zext64 x = (0#m ++ x).cast h := by
  apply BitVec.eq_of_toNat_eq
  have hlt : x.toNat < 2 ^ 64 := Nat.lt_of_lt_of_le x.isLt (Nat.pow_le_pow_right (by decide) (by omega))
  simpa [zext64, BitVec.toNat_append] using hlt

/-- Settles O31: each GET has the path check alone, and writes RDATA with its field. -/
theorem getCommandsReadFields : Obligations.GetCommandsReadFields := by
  intro p v s ha
  refine ⟨fun hp => ?_, fun c hc => ?_⟩
  · have hget {i : Instr} {x : DWord} (h : Done s (s.setRdata x) i) {y : DWord} (hxy : x = y) :
        exec i s = .next { s with rdata := y } := hxy ▸ exec_done ha h
    refine ⟨hget (i := .getEnt p v) ⟨hp, rfl⟩ rfl, hget (i := .getAddr p v) ⟨hp, rfl⟩ ?_,
      hget (i := .getOpt p v) ⟨hp, rfl⟩ ?_, hget (i := .getTrap p v) ⟨hp, rfl⟩ ?_,
      hget (i := .getDpl p v) ⟨hp, rfl⟩ ?_, hget (i := .getPres p v) ⟨hp, rfl⟩ ?_⟩
    · rw [zext64_eq_append (m := 32) _ rfl, BitVec.append_assoc]
      rfl
    · exact zext64_eq_append _ rfl
    · rw [State.opt, optTrap_entOpt, zext64_ofBool]
    · rw [State.opt, optDpl_entOpt]
      exact zext64_eq_append _ rfl
    · rw [State.opt, optPresent_entOpt, zext64_ofBool]
  · exact ⟨exec_pathFails rfl rfl ha hc, exec_pathFails rfl rfl ha hc, exec_pathFails rfl rfl ha hc,
      exec_pathFails rfl rfl ha hc, exec_pathFails rfl rfl ha hc, exec_pathFails rfl rfl ha hc⟩

end Sys2Proof.Machine
end

section
/-! LIDT and PUBLISH (spec/44_idtr_load.md). -/

namespace Sys2Proof.Machine

/-- The two loads abort with 12 once published (R170, R171). -/
theorem exec_idtrLoad_published {i : Instr} {s : State} (hl : i.op.commandClass = .idtrLoad) (ha : s.aborted = false)
    (hc : s.cplIn = 0) (hp : s.published = true) : exec i s = .next (s.abort .alreadyPublished) := by
  have hfirst : firstFailing [checkPrivilege s, checkUnpublished s, checkLoadWindow s] = some .alreadyPublished := by
    rw [checkPrivilege_pass hc, checkUnpublished_fail hp, firstFailing_none, firstFailing_some]
  cases i
  case lidt | publish => exact runCommand_fails ha hfirst
  all_goals cases hl

/-- Settles O34: the load of a LIDT whose checks pass, and its checks in order. -/
theorem lidtLoadsIdtr : Obligations.LidtLoadsIdtr :=
  fun _ _ _ ha => ⟨fun hc hp hf => exec_done ha ⟨hc, hp, hf, rfl⟩, exec_idtrLoad_privilege rfl ha,
    exec_idtrLoad_published rfl ha, exec_idtrLoad_live rfl ha⟩

/-- Settles O35: the load of a PUBLISH whose checks pass, and its checks in order. -/
theorem publishLoadsTable : Obligations.PublishLoadsTable :=
  fun _ ha => ⟨fun hc hp hf => exec_done ha ⟨hc, hp, hf, rfl⟩, exec_idtrLoad_privilege rfl ha,
    exec_idtrLoad_published rfl ha, exec_idtrLoad_live rfl ha⟩

end Sys2Proof.Machine
end

section
/-! Commands in sequence: the pseudo-instructions (spec/30_encoding.md R96), the settings of an option word
(spec/42_option_accessors.md R157) and the address of an installed gate (spec/43_table_access.md R161). -/

namespace Sys2Proof.Machine

/-! ### Sequences -/

theorem execAll_cons {i : Instr} {is : List Instr} {s t : State} (h : exec i s = .next t) :
    execAll (i :: is) s = execAll is t := by
  simp only [execAll, h]

/-- A sequence that answers answers with its first command, and then with the rest. -/
theorem execAll_cons_cases {i : Instr} {is : List Instr} {s t : State} (h : execAll (i :: is) s = .next t) :
    ∃ u, exec i s = .next u ∧ execAll is u = .next t := by
  obtain ⟨u, hu⟩ := exec_completes i s
  exact ⟨u, hu, execAll_cons hu ▸ h⟩

/-- A sequence that ends unaborted began unaborted: an abort is sticky. -/
theorem execAll_unaborted {is : List Instr} {s t : State} (h : execAll is s = .next t) (ht : t.aborted = false) :
    s.aborted = false := by
  induction is generalizing s with
  | nil =>
    cases h
    exact ht
  | cons i is ih =>
    obtain ⟨u, hu, hrest⟩ := execAll_cons_cases h
    exact (exec_unaborted hu (ih hrest)).1

/-- What every performed command of a list keeps, a sequence of them that ends unaborted keeps. -/
theorem execAll_keeps {P : State → Prop} {is : List Instr} {s t : State} (h : execAll is s = .next t)
    (ht : t.aborted = false) (hstep : ∀ i ∈ is, ∀ s t, Done s t i → P s → P t) (hs : P s) : P t := by
  induction is generalizing s with
  | nil =>
    cases h
    exact hs
  | cons i is ih =>
    obtain ⟨u, hu, hrest⟩ := execAll_cons_cases h
    obtain ⟨-, hdone⟩ := exec_unaborted hu (execAll_unaborted hrest ht)
    exact ih hrest (fun j hj => hstep j (List.mem_cons_of_mem _ hj)) (hstep i List.mem_cons_self s u hdone hs)

/-! ### The two-command pseudo-instructions -/

theorem State.opt_install_self {s : State} {v : Vec} {a : Word} (h : s.tableCanonical) :
    (s.install v a).opt v = installedOpt := by
  rw [State.opt, State.ent_install h, if_pos rfl, entOpt_pack]

/-- The address of a slot is its MID and LOW alone. -/
theorem State.address_setOpt {s : State} {v : Vec} {w : Half} (h : s.tableCanonical) :
    entAddress ((s.setOpt v w).ent v) = entAddress (s.ent v) := by
  obtain ⟨hlow, -, hmid⟩ := State.setOpt_keeps (v := v) (w := w) h
  rw [entAddress, hlow, hmid, entAddress]

theorem State.address_install {s : State} {v : Vec} {a : Word} (h : s.tableCanonical) :
    entAddress ((s.install v a).ent v) = a := by
  rw [State.ent_install h, if_pos rfl, entAddress, entMid_pack, entLow_pack, addrJoin_split]

/-- SETADDR, then a setter of an option word on the same slot. -/
theorem execAll_install_setOpt {p : Path} {v : Vec} {a : Word} {i : Instr} {w : Half} {s : State}
    (ha : s.aborted = false) (hs : s.tableCanonical) (hp : checkPath p v = none) (hf : s.ifIn = false)
    (hdone : Done (s.install v a) ((s.install v a).setOpt v w) i) :
    ∃ t, execAll [.setAddr p v a, i] s = .next t ∧ t.aborted = false ∧ t.opt v = w ∧ entAddress (t.ent v) = a := by
  have hcanonical := State.install_canonical (v := v) (a := a) hs
  have hinstall : exec (.setAddr p v a) s = .next (s.install v a) := exec_done ha ⟨hp, hf, rfl⟩
  have hset : exec i (s.install v a) = .next ((s.install v a).setOpt v w) := exec_done ha hdone
  have habort : ((s.install v a).setOpt v w).aborted = false := by rw [State.setOpt_aborted, State.install_aborted, ha]
  exact ⟨_, (execAll_cons hinstall).trans (execAll_cons hset), habort, State.opt_setOpt_self hcanonical,
    (State.address_setOpt hcanonical).trans (State.address_install hs)⟩

/-- Settles O8: the installed word 0x8E00 with T set is 0x8F00, with DPL 3 is 0xEE00. -/
theorem pseudoInstructionsInstallGates : Obligations.PseudoInstructionsInstallGates := by
  intro p v addr s _ ha hs hp hf
  have htrap : optSetTrap ((s.install (.ofNat 8 v) (.ofNat 32 addr)).opt (.ofNat 8 v)) (auxBit 1) = 0x8F00 := by
    rw [State.opt_install_self hs]
    decide
  have hdpl : optSetDpl ((s.install (.ofNat 8 v) (.ofNat 32 addr)).opt (.ofNat 8 v)) (auxPair 3) = 0xEE00 := by
    rw [State.opt_install_self hs]
    decide
  exact ⟨execAll_install_setOpt ha hs hp hf ⟨by decide, hp, hf, by rw [htrap]⟩,
    execAll_install_setOpt ha hs hp hf ⟨by decide, hp, hf, by rw [hdpl]⟩⟩

/-! ### The settings of an option word -/

/-- The three fields that the accessors set. -/
def settingsOf (w : Half) : Bool × BitVec 2 × Bool := (optTrap w, optDpl w, optPresent w)

theorem settingsAfter_cons (i : Instr) (is : List Instr) (x : Bool × BitVec 2 × Bool) :
    settingsAfter (i :: is) x = settingsAfter is (settingsAfter [i] x) := by
  cases i <;> rfl

/-- A field setter of the slot leaves its own value in its field, the others as they were, and the fixed bits. -/
theorem Done.settings {i : Instr} {p : Path} {v : Vec} {s t : State} (h : Done s t i) (hs : s.tableCanonical)
    (hop : i.op ∈ [Op.setTrap, Op.setDpl, Op.setPres]) (hslot : i.slot? = some (p, v)) :
    settingsOf (t.opt v) = settingsAfter [i] (settingsOf (s.opt v)) ∧ optLegal (t.opt v) = optLegal (s.opt v) := by
  cases i
  case setTrap =>
    cases hslot
    obtain ⟨-, -, -, rfl⟩ := h
    rw [State.opt_setOpt_self hs]
    exact ⟨by simp [settingsOf, settingsAfter, auxBit], optLegal_setTrap _ _⟩
  case setDpl =>
    cases hslot
    obtain ⟨-, -, -, rfl⟩ := h
    rw [State.opt_setOpt_self hs]
    exact ⟨by simp [settingsOf, settingsAfter, auxPair], optLegal_setDpl _ _⟩
  case setPres =>
    cases hslot
    obtain ⟨-, -, -, -, rfl⟩ := h
    rw [State.opt_setOpt_self hs]
    exact ⟨by simp [settingsOf, settingsAfter, auxBit], optLegal_setPresent _ _⟩
  all_goals simp [Instr.op] at hop

/-- A sequence of field setters of one slot leaves the last value of each field. -/
theorem execAll_settings {is : List Instr} {v : Vec} {s t : State} (h : execAll is s = .next t)
    (ht : t.aborted = false) (hs : s.tableCanonical)
    (his : ∀ i ∈ is, i.op ∈ [Op.setTrap, Op.setDpl, Op.setPres] ∧ ∃ q, i.slot? = some (q, v)) :
    settingsOf (t.opt v) = settingsAfter is (settingsOf (s.opt v)) ∧ optLegal (t.opt v) = optLegal (s.opt v) := by
  induction is generalizing s with
  | nil =>
    cases h
    exact ⟨rfl, rfl⟩
  | cons i is ih =>
    obtain ⟨u, hu, hrest⟩ := execAll_cons_cases h
    obtain ⟨-, hdone⟩ := exec_unaborted hu (execAll_unaborted hrest ht)
    obtain ⟨hop, q, hslot⟩ := his i List.mem_cons_self
    obtain ⟨hfirst, hfixed⟩ := hdone.settings hs hop hslot
    obtain ⟨hlast, hfixed'⟩ := ih hrest (hdone.canonical hs) fun j hj => his j (List.mem_cons_of_mem _ hj)
    rw [settingsAfter_cons, ← hfirst]
    exact ⟨hlast, hfixed'.trans hfixed⟩

/-- Settles O32: the getters read the fields of the slot's option word, and those are the last values set. -/
theorem optionSettingsRoundTrip : Obligations.OptionSettingsRoundTrip := by
  intro is p v s t hs hlegal his h ht hp
  obtain ⟨hfields, hfixed⟩ := execAll_settings h ht hs his
  have hmustBeOne : optKeepsMustBeOne (t.opt v) = true := ((Bool.and_eq_true _ _).mp (hfixed.trans hlegal)).1
  change settingsOf (t.opt v) = settingsAfter is (optTrap (s.opt v), optDpl (s.opt v), optPresent (s.opt v)) at hfields
  rw [← hfields]
  exact ⟨⟨_, exec_done ht ⟨hp, rfl⟩, zext64_ofBool _⟩, ⟨_, exec_done ht ⟨hp, rfl⟩, rfl⟩,
    ⟨_, exec_done ht ⟨hp, rfl⟩, zext64_ofBool _⟩, of_decide_eq_true hmustBeOne⟩

/-! ### The address of an installed gate -/

/-- A command that is not mutating leaves the table memory and HV. -/
theorem Done.not_mutating {i : Instr} {s t : State} (h : Done s t i) (hi : i.op.commandClass ≠ .mutating) :
    t.tbl = s.tbl ∧ t.hv = s.hv := by
  cases i
  case clr | setAddr | setFn | setOpt | setTrap | setDpl | setPres => exact absurd rfl hi
  all_goals
    simp only [Done] at h
    simp [h]

theorem State.ent_of_tbl {s t : State} (h : t.tbl = s.tbl) (v : Vec) : t.ent v = s.ent v := by
  rw [State.ent, h, State.ent]

/-- A command that does not mutate the slot leaves its entry. -/
theorem Done.ent_unmutated {i : Instr} {v : Vec} {s t : State} (h : Done s t i) (hs : s.tableCanonical)
    (hi : i.op.commandClass = .mutating → ∀ r, i.slot? ≠ some (r, v)) : t.ent v = s.ent v := by
  by_cases hm : i.op.commandClass = .mutating
  · exact h.ent_other hs (hi hm)
  · exact State.ent_of_tbl (h.not_mutating hm).1 v

/-- Settles O33: the install writes the address, nothing between touches the slot, and GETADDR reads it. -/
theorem installedAddressReadsBack : Obligations.InstalledAddressReadsBack := by
  intro i p q v a is s s' t u hs hi h his hkeep hget hu
  obtain ⟨ht, -, rfl⟩ := exec_unaborted hget hu
  obtain ⟨-, hdone⟩ := exec_unaborted h (execAll_unaborted his ht)
  have hinstalled : s' = s.install v a := by
    rcases hi with rfl | ⟨k, rfl⟩
    · obtain ⟨-, -, hs'⟩ := hdone
      exact hs'
    · obtain ⟨-, -, -, hs'⟩ := hdone
      exact hs'
  have hent : t.tableCanonical ∧ t.ent v = s'.ent v :=
    execAll_keeps (P := fun x => x.tableCanonical ∧ x.ent v = s'.ent v) his ht
      (fun j hj x y hd hx => ⟨hd.canonical hx.1, (hd.ent_unmutated hx.1 (hkeep j hj)).trans hx.2⟩)
      ⟨hdone.canonical hs, rfl⟩
  rw [State.setRdata_rdata, hent.2, hinstalled, State.address_install hs, zext64]

end Sys2Proof.Machine
end

section
/-! What each command class leaves unchanged (spec/20_memory.md R55; spec/40_command_execution.md R134), and that every
command but PUBLISH may be repeated. -/

namespace Sys2Proof.Machine

/-- A slot that the command does not name is left. -/
theorem SlotAfter.other {i : Instr} {p : Path} {u v : Vec} {s t : State} (h : SlotAfter s t i u)
    (hi : i.slot? = some (p, v)) (hu : u ≠ v) : t.ent u = s.ent u ∧ t.hvBit u = s.hvBit u := by
  have named {P : Prop} {q : Path} (hslot : i.slot? = some (q, u)) : P := by
    rw [hi] at hslot
    cases hslot
    exact absurd rfl hu
  cases h with
  | same he hh => exact ⟨he, hh⟩
  | cleared hslot => exact named hslot
  | installed hslot => exact named hslot
  | optioned hslot => exact named hslot

/-- A performed mutating command leaves RDATA, IDTR and PUBLISHED. -/
theorem Done.mutating {i : Instr} {s t : State} (h : Done s t i) (hm : i.op.commandClass = .mutating) :
    t.rdata = s.rdata ∧ SameLoad s t := by
  cases i
  case clr | setAddr | setFn | setOpt | setTrap | setDpl | setPres =>
    simp only [Done] at h
    simp [h, SameLoad]
  all_goals cases hm

/-- The four commands that set an option word do nothing else. -/
theorem Done.setOpt {i : Instr} {p : Path} {v : Vec} {s t : State} (h : Done s t i) (hi : i.slot? = some (p, v))
    (hop : i.op ∈ [Op.setOpt, Op.setTrap, Op.setDpl, Op.setPres]) : ∃ w, t = s.setOpt v w := by
  cases i
  case setOpt | setTrap | setDpl | setPres =>
    cases hi
    simp only [Done] at h
    simp only [h]
    exact ⟨_, rfl⟩
  all_goals simp [Instr.op] at hop

/-- The bytes outside slot v are those of the other slots. -/
theorem sameTableOutside_of_ent {s t : State} {v : Vec} (h : ∀ u, u ≠ v → t.ent u = s.ent u) :
    SameTableOutside s t v := by
  intro i hi hout
  obtain ⟨u, k, hk, rfl⟩ := slotIndex_of_byte hi
  exact State.tblByte_of_ent (h u (by rintro rfl; omega)) hk

theorem SamePorts.refl (s : State) : SamePorts s s := ⟨rfl, rfl, rfl, rfl, rfl, rfl, rfl, rfl, rfl⟩

/-- Settles O37: of a discarded command, an abort and a performed command the last alone writes, and only its slot. -/
theorem mutatingCommandFrame : Obligations.MutatingCommandFrame := by
  intro i p v s t hm hi hs h
  rcases exec_cases h with ⟨-, rfl⟩ | ⟨-, c, rfl⟩ | ⟨ha, hdone⟩
  · exact ⟨fun _ _ _ => rfl, fun _ _ => rfl, rfl, ⟨rfl, rfl⟩, .refl _, fun _ => ⟨rfl, rfl⟩,
      fun _ => ⟨fun _ _ => rfl, rfl⟩, fun _ => ⟨rfl, rfl, rfl, rfl⟩⟩
  · exact ⟨fun _ _ _ => rfl, fun _ _ => rfl, rfl, ⟨rfl, rfl⟩, .refl s, nofun, fun _ => ⟨fun _ _ => rfl, rfl⟩,
      fun _ => ⟨rfl, rfl, rfl, rfl⟩⟩
  · have hother (u : Vec) (hu : u ≠ v) := (hdone.slotAfter hs u).other hi hu
    obtain ⟨hrdata, hload⟩ := hdone.mutating hm
    refine ⟨sameTableOutside_of_ent fun u hu => (hother u hu).1, fun u hu => (hother u hu).2, hrdata, hload,
      hdone.ports, fun _ => ⟨hdone.aborted, hdone.err⟩, fun ht => ?_, fun hop => ?_⟩
    · rw [hdone.aborted, ha] at ht
      cases ht
    · obtain ⟨w, rfl⟩ := hdone.setOpt hi hop
      exact ⟨State.setOpt_hv _ _ _, State.setOpt_keeps hs⟩

theorem sameTable_of_tbl {s t : State} (h : t.tbl = s.tbl) : SameTable s t := fun i _ => by
  rw [State.tblByte, h, State.tblByte]

/-- A performed reading command leaves IDTR and PUBLISHED: only the loads write them. -/
theorem Done.reading {i : Instr} {s t : State} (h : Done s t i) (hr : i.op.commandClass = .reading) : SameLoad s t := by
  rcases h.load with hload | ⟨-, hclass, -⟩
  · exact hload
  · rw [hr] at hclass
    cases hclass

/-- Settles O38: a performed GET writes RDATA, an abort ABORTED and ERR. -/
theorem readingCommandFrame : Obligations.ReadingCommandFrame := by
  intro i s t hr h
  rcases exec_cases h with ⟨-, rfl⟩ | ⟨-, c, rfl⟩ | ⟨ha, hdone⟩
  · exact ⟨fun _ _ => rfl, rfl, ⟨rfl, rfl⟩, .refl _, fun _ => ⟨rfl, rfl⟩, fun _ => rfl⟩
  · exact ⟨fun _ _ => rfl, rfl, ⟨rfl, rfl⟩, .refl s, nofun, fun _ => rfl⟩
  · obtain ⟨htbl, hhv⟩ := hdone.not_mutating (by rw [hr]; decide)
    refine ⟨sameTable_of_tbl htbl, hhv, hdone.reading hr, hdone.ports, fun _ => ⟨hdone.aborted, hdone.err⟩,
      fun ht => ?_⟩
    rw [hdone.aborted, ha] at ht
    cases ht

/-- A performed load leaves RDATA, and LIDT leaves PUBLISHED. -/
theorem Done.idtrLoad {i : Instr} {s t : State} (h : Done s t i) (hl : i.op.commandClass = .idtrLoad) :
    t.rdata = s.rdata ∧ (i ≠ .publish → t.published = s.published) := by
  cases i
  case lidt =>
    obtain ⟨-, -, -, rfl⟩ := h
    exact ⟨rfl, fun _ => rfl⟩
  case publish =>
    obtain ⟨-, -, -, rfl⟩ := h
    exact ⟨rfl, fun hne => absurd rfl hne⟩
  all_goals cases hl

/-- Settles O39: a performed load writes IDTR, PUBLISH also PUBLISHED, an abort ABORTED and ERR. -/
theorem idtrCommandFrame : Obligations.IdtrCommandFrame := by
  intro i s t hl h
  rcases exec_cases h with ⟨-, rfl⟩ | ⟨-, c, rfl⟩ | ⟨ha, hdone⟩
  · exact ⟨fun _ _ => rfl, rfl, rfl, .refl _, fun _ => ⟨rfl, rfl⟩, fun _ => ⟨rfl, rfl⟩, fun _ => rfl⟩
  · exact ⟨fun _ _ => rfl, rfl, rfl, .refl s, nofun, fun _ => ⟨rfl, rfl⟩, fun _ => rfl⟩
  · obtain ⟨htbl, hhv⟩ := hdone.not_mutating (by rw [hl]; decide)
    obtain ⟨hrdata, hpub⟩ := hdone.idtrLoad hl
    refine ⟨sameTable_of_tbl htbl, hhv, hrdata, hdone.ports, fun _ => ⟨hdone.aborted, hdone.err⟩, fun ht => ?_, hpub⟩
    rw [hdone.aborted, ha] at ht
    cases ht

/-! ### Repeating a command -/

/-- Storing again what a slot holds changes nothing. -/
theorem State.setEnt_same {s : State} {v : Vec} {e : DWord} (h : s.tableCanonical) (he : s.ent v = e) :
    s.setEnt v e = s := he ▸ State.setEnt_ent h

theorem State.setHv_same {s : State} {v : Vec} {b : Bool} (h : s.hvBit v = b) : s.setHv v b = s := h ▸ State.setHv_hvBit

/-- Storing again the option word that a slot holds changes nothing. -/
theorem State.setOpt_same {s : State} {v : Vec} {w : Half} (h : s.tableCanonical) (hw : s.opt v = w) :
    s.setOpt v w = s := State.setEnt_same h (by rw [← hw]; exact (entWithOpt_self _).symm)

/-- Installing again changes nothing: the entry and the handler bit stand already. -/
theorem State.install_again {s : State} {v : Vec} {a : Word} (h : s.tableCanonical) :
    (s.install v a).install v a = s.install v a := by
  have hent : (s.install v a).ent v = packEntry (addrMid a) installedOpt (s.install v a).csIn (addrLow a) := by
    rw [State.ent_install h, if_pos rfl, State.install_csIn]
  rw [State.install, State.setEnt_same (State.install_canonical h) hent, State.setHv_same State.hvBit_install_self]

/-- Clearing again changes nothing. -/
theorem State.clear_again {s : State} {v : Vec} (h : s.tableCanonical) :
    (((s.setEnt v defaultEntry).setHv v false).setEnt v defaultEntry).setHv v false =
      (s.setEnt v defaultEntry).setHv v false := by
  have hent : ((s.setEnt v defaultEntry).setHv v false).ent v = defaultEntry := State.ent_setEnt_self h
  have hhv : ((s.setEnt v defaultEntry).setHv v false).hvBit v = false := by rw [State.hvBit_setHv, if_pos rfl]
  have hcanonical : ((s.setEnt v defaultEntry).setHv v false).tableCanonical := State.setEnt_canonical h
  rw [State.setEnt_same hcanonical hent, State.setHv_same hhv]

/-- Each field setter may be repeated. -/
theorem optSetTrap_again (w : Half) (b : Bool) : optSetTrap (optSetTrap w b) b = optSetTrap w b := by
  apply BitVec.eq_of_getLsbD_eq
  intro i _
  simp only [optSetTrap_bit]
  split <;> rfl

theorem optSetDpl_again (w : Half) (d : BitVec 2) : optSetDpl (optSetDpl w d) d = optSetDpl w d := by
  apply BitVec.eq_of_getLsbD_eq
  intro i _
  simp only [optSetDpl_bit]
  split <;> rfl

theorem optSetPresent_again (w : Half) (b : Bool) : optSetPresent (optSetPresent w b) b = optSetPresent w b := by
  apply BitVec.eq_of_getLsbD_eq
  intro i _
  simp only [optSetPresent_bit]
  split <;> rfl

/-- Setting a field of the option word again changes nothing. -/
theorem State.setOpt_again {s : State} {v : Vec} {f : Half → Half} (h : s.tableCanonical)
    (hf : f (f (s.opt v)) = f (s.opt v)) :
    s.setOpt v (f (s.opt v)) = (s.setOpt v (f (s.opt v))).setOpt v (f ((s.setOpt v (f (s.opt v))).opt v)) := by
  have hopt := State.opt_setOpt_self (v := v) (w := f (s.opt v)) h
  have hcanonical : (s.setOpt v (f (s.opt v))).tableCanonical := State.setEnt_canonical h
  rw [hopt, hf, State.setOpt_same hcanonical hopt]

theorem State.opt_setRdata {s : State} {v : Vec} {x : DWord} : (s.setRdata x).opt v = s.opt v := rfl

theorem State.setRdata_again {s : State} {x : DWord} : (s.setRdata x).setRdata x = s.setRdata x := rfl

/-- The state a performed command leaves is one it would leave again. -/
theorem Done.again {i : Instr} {s t : State} (h : Done s t i) (hi : i ≠ .publish) (hs : s.tableCanonical) :
    Done t t i := by
  cases i
  case clr =>
    obtain ⟨hp, hf, rfl⟩ := h
    exact ⟨hp, hf, (State.clear_again hs).symm⟩
  case setAddr =>
    obtain ⟨hp, hf, rfl⟩ := h
    exact ⟨hp, hf, (State.install_again hs).symm⟩
  case setFn =>
    obtain ⟨hp, hk, hf, rfl⟩ := h
    exact ⟨hp, hk, hf, (State.install_again hs).symm⟩
  case setOpt =>
    obtain ⟨hp, hf, hw, hhv, rfl⟩ := h
    exact ⟨hp, hf, hw, hhv, (State.setOpt_same (State.setEnt_canonical hs) (State.opt_setOpt_self hs)).symm⟩
  case setTrap aux =>
    obtain ⟨haux, hp, hf, rfl⟩ := h
    exact ⟨haux, hp, hf, State.setOpt_again (f := (optSetTrap · (auxBit aux))) hs (optSetTrap_again _ _)⟩
  case setDpl aux =>
    obtain ⟨haux, hp, hf, rfl⟩ := h
    exact ⟨haux, hp, hf, State.setOpt_again (f := (optSetDpl · (auxPair aux))) hs (optSetDpl_again _ _)⟩
  case setPres aux =>
    obtain ⟨haux, hp, hf, hhv, rfl⟩ := h
    exact ⟨haux, hp, hf, hhv, State.setOpt_again (f := (optSetPresent · (auxBit aux))) hs (optSetPresent_again _ _)⟩
  case lidt =>
    obtain ⟨hc, hp, hf, rfl⟩ := h
    exact ⟨hc, hp, hf, rfl⟩
  case publish => exact absurd rfl hi
  all_goals
    obtain ⟨hp, rfl⟩ := h
    refine ⟨hp, ?_⟩
    simp only [State.opt_setRdata, State.ent_setRdata, State.setRdata_again]

/-- Settles O40: an aborted state discards the command again, and a performed command finds its own writes. -/
theorem commandsButPublishAreIdempotent : Obligations.CommandsButPublishAreIdempotent := by
  intro i s t hi hs h
  rcases exec_cases h with ⟨ha, rfl⟩ | ⟨-, c, rfl⟩ | ⟨ha, hdone⟩
  · exact h
  · exact exec_aborted rfl
  · exact exec_done (hdone.aborted.trans ha) (hdone.again hi hs)

end Sys2Proof.Machine
end

section
/-! Slots in the system address space (spec/20_memory.md R50, R51, R53), STATUS (spec/10_state.md R30) and the vector
classification (spec/40_command_execution.md R124). -/

namespace Sys2Proof.Machine

/-- Byte k of a little-endian read is the byte at its index. -/
theorem Memory.readLE_byte {m : Memory} {i n k : Nat} (h : k < n) :
    Memory.readLE m i n / 256 ^ k % 256 = (Memory.read m (i + k)).toNat := by
  induction n generalizing i k with
  | zero => omega
  | succ n ih =>
    have hbyte := (Memory.read m i).isLt
    rw [Memory.readLE]
    cases k with
    | zero =>
      rw [Nat.pow_zero, Nat.div_one, Nat.add_mul_mod_self_left, Nat.mod_eq_of_lt hbyte, Nat.add_zero]
    | succ k =>
      rw [Nat.pow_succ', ← Nat.div_div_eq_div_mul,
        show ((Memory.read m i).toNat + 256 * Memory.readLE m (i + 1) n) / 256 = Memory.readLE m (i + 1) n by omega,
        ih (by omega), show i + (k + 1) = i + 1 + k by omega]

/-- An entry is the number its 8 bytes write. -/
theorem State.ent_toNat (s : State) (v : Vec) : (s.ent v).toNat = Memory.readLE s.tbl (slotIndex v) 8 := by
  have hlt := Memory.readLE_lt (i := slotIndex v) (n := 8) (m := s.tbl)
  rw [State.ent, BitVec.toNat_ofNat]
  exact Nat.mod_eq_of_lt (by omega)

/-- Byte k of a slot is bits 8k+7 to 8k of its entry (R53). -/
theorem State.tblByte_slot (s : State) (v : Vec) {k : Nat} (hk : k < 8) :
    s.tblByte (slotIndex v + k) = (s.ent v).extractLsb' (8 * k) 8 := by
  apply BitVec.eq_of_toNat_eq
  rw [extractByte_toNat, State.ent_toNat, Nat.pow_mul]
  exact (Memory.readLE_byte hk).symm

/-- Settles O41: the window index of a slot's address is its table index, so the accesses are the slot's own. -/
theorem slotsInSystemAddressSpace : Obligations.SlotsInSystemAddressSpace := by
  intro s v
  have hwindow : windowIndex (Config.idtBase + BitVec.ofNat 32 (8 * v.toNat)) 8 = some (slotIndex v) :=
    windowIndex_slotAddress v
  refine ⟨?_, fun e => ?_, fun k => s.tblByte_slot v⟩
  · rw [State.memRead, hwindow, State.ent_toNat, Option.map_some]
  · rw [State.memWrite, hwindow, Option.map_some, State.setEnt]

/-- Settles O43: STATUS is the concatenation of its fields, each of a few bits. -/
theorem statusBits : Obligations.StatusBits := by
  have hfields : ∀ (aborted published : Bool) (err : BitVec 4),
      let status : Half := BitVec.ofBool aborted ++ BitVec.ofBool published ++ 0#10 ++ err
      status.getLsbD 15 = aborted ∧ status.getLsbD 14 = published ∧ status.extractLsb' 4 10 = 0#10 ∧
        status.extractLsb' 0 4 = err := by decide
  exact ⟨fun s => hfields s.aborted s.published s.err, by decide⟩

theorem mem_reservedVectors {n : Nat} : n ∈ reservedVectors ↔ n = 9 ∨ n = 15 ∨ 20 ≤ n ∧ n ≤ 29 ∨ n = 31 := by
  simp only [reservedVectors, List.mem_cons, List.not_mem_nil, or_false]
  omega

theorem mem_errorCodeVectors {n : Nat} : n ∈ errorCodeVectors ↔ 10 ≤ n ∧ n ≤ 14 ∨ n = 17 ∨ n = 30 := by
  simp only [errorCodeVectors, List.mem_cons, List.not_mem_nil, or_false]
  omega

/-- Settles O20: each range of the table takes its own branch of the class and of the kind. -/
theorem vectorClassification : Obligations.VectorClassification := by
  intro v
  simp only [classOf, kindOf, mem_reservedVectors, mem_errorCodeVectors]
  refine ⟨fun h => ⟨?_, ?_⟩, fun h => ⟨?_, ?_⟩, fun h => ⟨?_, ?_⟩, fun h => ⟨?_, ?_⟩, fun h => ⟨?_, ?_⟩,
    fun h => ⟨?_, ?_⟩⟩
  · rw [if_neg (by omega), if_pos (by omega)]
  · rw [if_neg (by omega), if_neg (by omega), if_neg (by omega), if_neg (by omega)]
  · rw [if_neg (by omega), if_pos (by omega)]
  · rw [if_neg (by omega), if_pos (by omega)]
  · rw [if_neg (by omega), if_pos (by omega)]
  · rw [if_neg (by omega), if_neg (by omega), if_pos (by omega)]
  · rw [if_neg (by omega), if_pos (by omega)]
  · rw [if_neg (by omega), if_neg (by omega), if_neg (by omega), if_pos (by omega)]
  · rw [if_pos (by omega)]
  · rw [if_pos (by omega)]
  · rw [if_neg (by omega), if_neg (by omega)]
  · rw [if_neg (by omega), if_neg (by omega), if_neg (by omega), if_neg (by omega)]

end Sys2Proof.Machine
end

section
/-! Taking a trap and returning from its handler (spec/60_exceptions.md R203 to R213). -/

namespace Sys2Proof.Machine

/-! ### What decides a dispatch -/

/-- A trap that is not a masked device interrupt. -/
def Unmasked (t : TrapRequest) (s : State) : Prop := ¬ (t.cause = .device ∧ s.ifIn = false)

theorem unmasked_of {t : TrapRequest} {s : State} (h : t.cause = .device → s.ifIn = true) : Unmasked t s := by
  rintro ⟨hc, hf⟩
  rw [h hc] at hf
  cases hf

theorem takeTrap_masked {t : TrapRequest} {s : State} (hc : t.cause = .device) (hf : s.ifIn = false) :
    takeTrap t s = .next s := if_pos ⟨hc, hf⟩

theorem takeTrap_unpublished {t : TrapRequest} {s : State} (hu : Unmasked t s) (hp : s.published = false) :
    takeTrap t s = .fault .dispatchBeforePublish := (if_neg hu).trans (if_pos hp)

/-- In a published state the gate read decides, and the gate it serves. -/
theorem takeTrap_published {t : TrapRequest} {s : State} (hu : Unmasked t s) (hp : s.published = true) :
    (gateRead s t.vec = .outOfLimit → takeTrap t s = .fault .gateOutOfLimit) ∧
    (gateRead s t.vec = .notServed → takeTrap t s = .fault .gateNotServed) ∧
    (∀ e f, gateRead s t.vec = .entry e → gateProblem t e s = some f → takeTrap t s = .fault f) ∧
    (∀ e, gateRead s t.vec = .entry e → gateProblem t e s = none → takeTrap t s = .next (enterHandler t e s)) := by
  unfold takeTrap
  rw [if_neg hu, if_neg (by rw [hp]; exact Bool.noConfusion)]
  exact ⟨fun hg => by rw [hg], fun hg => by rw [hg], fun e f hg hf => by simp only [hg, hf],
    fun e hg hf => by simp only [hg, hf]⟩

theorem gateProblem_absent {t : TrapRequest} {e : DWord} {s : State} (h : e.getLsbD 47 = false) :
    gateProblem t e s = some .gateAbsent := by
  have hpresent : (decodeGate e).present = false := h
  rw [gateProblem, hpresent]
  rfl

theorem gateProblem_denied {t : TrapRequest} {e : DWord} {s : State} (hp : e.getLsbD 47 = true)
    (hc : t.cause = .software) (hd : (e.extractLsb' 45 2).toNat < s.cplIn.toNat) :
    gateProblem t e s = some .softwareInterruptDenied := by
  have hpresent : (decodeGate e).present = true := hp
  have hdenied : t.cause = .software ∧ (decodeGate e).dpl < s.cplIn := ⟨hc, hd⟩
  rw [gateProblem, hpresent, if_pos hdenied]
  rfl

/-- The DPL is met by a software interrupt from a ring above it alone. -/
theorem gateProblem_not_denied {t : TrapRequest} {e : DWord} {s : State}
    (h : ¬ (t.cause = .software ∧ (e.extractLsb' 45 2).toNat < s.cplIn.toNat)) :
    gateProblem t e s ≠ some .softwareInterruptDenied := by
  have hadmitted : ¬ (t.cause = .software ∧ (decodeGate e).dpl < s.cplIn) := h
  rw [gateProblem, if_neg hadmitted]
  split_ifs <;> nofun

/-- Settles O54: an unmasked trap stops at the first of the four. -/
theorem unusableGateFaults : Obligations.UnusableGateFaults := by
  intro t s hu h
  cases hp : s.published with
  | false => exact ⟨_, takeTrap_unpublished hu hp⟩
  | true =>
    obtain ⟨hlimit, hserved, hproblem, -⟩ := takeTrap_published hu hp
    rcases h with hunpublished | hg | hg | ⟨e, hg, habsent⟩
    · rw [hp] at hunpublished
      cases hunpublished
    · exact ⟨_, hlimit hg⟩
    · exact ⟨_, hserved hg⟩
    · exact ⟨_, hproblem e _ hg (gateProblem_absent habsent)⟩

/-- Settles O56: the DPL check comes behind the present bit and before the convention, and only a software interrupt meets
it. -/
theorem dplGuardsSoftwareInterrupts : Obligations.DplGuardsSoftwareInterrupts := by
  intro t s e hp hg hpresent
  have admitted (h : ¬ (t.cause = .software ∧ (e.extractLsb' 45 2).toNat < s.cplIn.toNat)) :
      takeTrap t s ≠ .fault .softwareInterruptDenied := by
    by_cases hmasked : t.cause = .device ∧ s.ifIn = false
    · rw [takeTrap_masked hmasked.1 hmasked.2]
      nofun
    · obtain ⟨-, -, hfault, hnext⟩ := takeTrap_published hmasked hp
      cases hf : gateProblem t e s with
      | none =>
        rw [hnext e hg hf]
        nofun
      | some f =>
        rw [hfault e f hg hf]
        rintro ⟨⟩
        exact gateProblem_not_denied h hf
  refine ⟨fun hc hd => ?_, fun hc => admitted fun h => hc h.1, fun hd => admitted fun h => Nat.not_lt.mpr hd h.2⟩
  obtain ⟨-, -, hfault, -⟩ := takeTrap_published (unmasked_of (by rw [hc]; nofun)) hp
  exact hfault e _ hg (gateProblem_denied hpresent hc hd)

/-- Settles O58: a published IDTR serves the vector's own slot, and the invariant has it absent. -/
theorem reservedVectorsNeverDispatched : Obligations.ReservedVectorsNeverDispatched := by
  intro t s hinv hclass hp hmask
  have hidtr := hinv.publishedTable hp
  have hread : gateRead s t.vec = .entry (s.ent t.vec) :=
    gateRead_slot (inLimit_published t.vec hidtr) (gateIndex_published t.vec hidtr)
  have habsent : (s.ent t.vec).getLsbD 47 = false := (optPresent_entOpt _).symm.trans (hinv.reservedAbsent _ hclass)
  obtain ⟨-, -, hfault, -⟩ := takeTrap_published (unmasked_of hmask) hp
  exact hfault _ _ hread (gateProblem_absent habsent)

/-! ### The frame -/

/-- The taxonomy of the saved IP is the model's rule, column by column. -/
theorem savedIp_savedIpOf (t : TrapRequest) (draw : Nat) : SavedIpOf t (savedIp t draw) := by
  refine ⟨fun h => ?_, fun h hc => ?_, fun h => ?_⟩
  · have hrule : savedIpRule t.vec = .following := by
      simp only [List.mem_cons, List.not_mem_nil, or_false] at h
      rw [savedIpRule, if_neg (by omega), if_neg (by omega), if_pos (by omega)]
    simp only [savedIp, hrule]
  · have hrule : savedIpRule t.vec = .offending := by
      simp only [List.mem_cons, List.not_mem_nil, or_false] at h
      rw [savedIpRule, if_neg (by omega), if_neg (by omega), if_neg (by omega)]
    simp only [savedIp, hrule, if_neg hc]
  · have hrule : savedIpRule t.vec = .either := by rw [savedIpRule, if_neg (by omega), if_pos h]
    simp only [savedIp, hrule]
    split
    · exact .inl rfl
    · exact .inr rfl

/-- The kinds with an error code are those of the vectors that carry one: 8 and the error-code vectors. -/
theorem kindOf_carries {v : Vec} {k : HandlerKind} (h : kindOf v = some k) :
    (k = .withErrorCode ∨ k = .divergingWithErrorCode) ↔ (v.toNat = 8 ∨ v.toNat ∈ errorCodeVectors) := by
  unfold kindOf at h
  split_ifs at h with _ h8 herr <;> cases h
  · simp [h8]
  · simp [herr]
  · simp [h8, herr]
  · simp [h8, herr]

theorem errorCodeRule_absent {v : Vec} (h : kindOf v = some .plain ∨ kindOf v = some .diverging) :
    errorCodeRule v = .absent := by
  have hnot : ¬ (v.toNat = 8 ∨ v.toNat ∈ errorCodeVectors) := by
    rcases h with h | h <;> simp [← kindOf_carries h]
  rw [mem_errorCodeVectors] at hnot
  have herr : v.toNat ∉ errorCodeVectors := by rw [mem_errorCodeVectors]; omega
  rw [errorCodeRule, if_neg (by omega), if_neg herr]

theorem errorCodeRule_carried {v : Vec} (h : kindOf v = some .withErrorCode ∨ kindOf v = some .divergingWithErrorCode) :
    errorCodeRule v = if v.toNat = 8 ∨ v.toNat = 17 then .alwaysZero else .supplied := by
  have hcarried : v.toNat = 8 ∨ v.toNat ∈ errorCodeVectors := by
    rcases h with h | h <;> simp [← kindOf_carries h]
  rw [errorCodeRule]
  by_cases hzero : v.toNat = 8 ∨ v.toNat = 17
  · rw [if_pos hzero, if_pos hzero]
  · rw [if_neg hzero, if_neg hzero, if_pos (hcarried.resolve_left fun h8 => hzero (.inl h8))]

/-- The error code stands below IP, CS and flags, for the kinds that carry one. -/
theorem trapFrame_words {t : TrapRequest} {s : State} :
    (kindOf t.vec = some .plain ∨ kindOf t.vec = some .diverging →
      (trapFrame t s).words = [savedIp t s.draws, Config.freeCsSlotHigh s.draws ++ s.csIn, t.flags]) ∧
    (kindOf t.vec = some .withErrorCode ∨ kindOf t.vec = some .divergingWithErrorCode →
      (trapFrame t s).words = [if t.vec = 8 ∨ t.vec = 17 then 0 else t.errorCode, savedIp t s.draws,
        Config.freeCsSlotHigh s.draws ++ s.csIn, t.flags]) := by
  refine ⟨fun hk => ?_, fun hk => ?_⟩
  · simp only [Frame.words, trapFrame, savedErrorCode, errorCodeRule_absent hk]
    rfl
  · have hvec : t.vec.toNat = 8 ∨ t.vec.toNat = 17 ↔ t.vec = 8 ∨ t.vec = 17 := by
      simp only [← BitVec.toNat_inj]
      rfl
    simp only [Frame.words, trapFrame, savedErrorCode, errorCodeRule_carried hk, hvec]
    split_ifs <;> rfl

/-- Settles O55: the gate has no problem, so the handler is entered through it (`enterHandler`). -/
theorem dispatchTransfersThroughGate : Obligations.DispatchTransfersThroughGate := by
  refine ⟨fun t s e hp hmask hg hpresent hdpl hconv hkind => ?_, fun t s => takeTrap_masked⟩
  have husable : gateProblem t e s = none :=
    gateProblem_eq_none.mpr ⟨hpresent, fun h => Nat.not_lt.mpr (hdpl h.1) h.2, hkind, hconv⟩
  obtain ⟨-, -, -, hnext⟩ := takeTrap_published (unmasked_of hmask) hp
  obtain ⟨hplain, hcarried⟩ := trapFrame_words (t := t) (s := s)
  exact ⟨enterHandler t e s, trapFrame t s, hnext e hg husable, rfl, rfl, rfl, Bool.and_eq_true_iff, rfl,
    savedIp_savedIpOf t s.draws, rfl, fun _ => hplain, fun _ => hcarried, rfl, rfl, ⟨rfl, rfl⟩, ⟨rfl, rfl⟩, rfl⟩

/-! ### The return -/

theorem returnFromTrap_returns {f : Frame} {rest : List Frame} {s : State} (hs : s.active = f :: rest)
    (hf : handlerReturns f.vec = true) :
    returnFromTrap s = .next { s with csIn := f.cs, cplIn := f.cpl, ifIn := f.ifFlag, cpuTarget := some f.ip,
                                      cpuFlags := some f.flags, active := rest } := by
  simp only [returnFromTrap, hs, if_pos hf]

theorem returnFromTrap_diverging {f : Frame} {rest : List Frame} {s : State} (hs : s.active = f :: rest)
    (hf : handlerReturns f.vec = false) : returnFromTrap s = .fault .returnFromDiverging := by
  simp only [returnFromTrap, hs, hf, if_neg Bool.false_ne_true]

/-- The handlers of vectors 8 and 18 alone do not return. -/
theorem handlerReturns_iff (v : Vec) : handlerReturns v = true ↔ v ≠ 8 ∧ v ≠ 18 := by
  rw [handlerReturns, Bool.and_eq_true, decide_eq_true_eq, decide_eq_true_eq, ← BitVec.toNat_ne_iff_ne,
    ← BitVec.toNat_ne_iff_ne]
  rfl

/-- Settles O57: a trap that leaves other active handlers entered one with the frame of the interrupted context, and the
return reads that frame. -/
theorem returnResumesInterruptedContext : Obligations.ReturnResumesInterruptedContext := by
  intro t s u u' h hne hactive
  rcases takeTrap_cases h with ⟨-, -, rfl⟩ | ⟨e, -, -, -, rfl⟩
  · exact absurd rfl hne
  have hframe : u'.active = trapFrame t s :: s.active := hactive
  refine ⟨fun h8 h18 => ?_, fun h => returnFromTrap_diverging hframe ?_⟩
  · have hreturns := returnFromTrap_returns hframe ((handlerReturns_iff _).mpr ⟨h8, h18⟩)
    exact ⟨_, savedIp t s.draws, hreturns, rfl, rfl, rfl, rfl, rfl, rfl, savedIp_savedIpOf t s.draws, rfl⟩
  · rw [Bool.eq_false_iff, ne_eq, handlerReturns_iff]
    rintro ⟨h8, h18⟩
    exact h.elim h8 h18

end Sys2Proof.Machine
end

section
/-! The end of a run (spec/70_reset_and_hazards.md R251): a run of commands and gate reads takes one step for each input up
to its last command, and no command sees the gate reads among them. -/

namespace Sys2Proof.Machine

/-! ### The inputs of a run -/

/-- The inputs a run consists of: commands with their pins, and gate reads (R251). -/
def Input.ofRun : Input → Bool
  | .command _ | .gateRead _ | .pins _ _ _ => true
  | .trap _ | .trapReturn | .foreignStore _ _ | .reset => false

theorem runInputs_cons (e : RunEvent) (es : List RunEvent) : runInputs (e :: es) = e.inputs ++ runInputs es := rfl

theorem runInputs_ofRun (events : List RunEvent) : (runInputs events).all Input.ofRun = true := by
  induction events with
  | nil => rfl
  | cons e es ih =>
    rw [runInputs_cons, List.all_append, ih]
    cases e <;> rfl

/-- A command waits exactly when the rest of the run holds a command. -/
theorem runInputs_any (events : List RunEvent) :
    (runInputs events).any Input.isCommand = events.any RunEvent.isCommand := by
  induction events with
  | nil => rfl
  | cons e es ih =>
    rw [runInputs_cons, List.any_append, ih, List.any_cons]
    cases e <;> rfl

/-- A presented word takes nothing else off the inputs. -/
theorem presentWord_inputs {w : DWord} {s t : State} (h : presentWord w s = .next t) : t.inputs = s.inputs := by
  rcases presentWord_cases h with ⟨-, rfl⟩ | ⟨-, c, rfl⟩ | ⟨-, i, -, hdone⟩
  · rfl
  · rfl
  · obtain ⟨-, -, -, hinputs, -⟩ := hdone.ports
    exact hinputs

/-- A step of a run always answers, and takes one input off. -/
theorem step_ofRun {x : Input} {rest : List Input} {s : State} (hi : s.inputs = x :: rest) (hx : x.ofRun = true) :
    ∃ t, step s = .next t ∧ t.inputs = rest := by
  rw [step_cons hi]
  cases x with
  | command w =>
    obtain ⟨t, ht⟩ := presentWord_completes w (s.setInputs rest)
    exact ⟨t, ht, presentWord_inputs ht⟩
  | gateRead g => exact ⟨_, rfl, rfl⟩
  | pins cs cpl f => exact ⟨_, rfl, rfl⟩
  | trap | trapReturn | foreignStore | reset => cases hx

/-! ### The end is reached, and not before the last command -/

theorem State.ended_eq (s : State) : s.ended = !s.inputs.any Input.isCommand := rfl

/-- By induction on the inputs that wait: either no command is among them, or one step takes the first off. -/
theorem runToEnd_reached {xs : List Input} {s : State} (hi : s.inputs = xs) (hx : xs.all Input.ofRun = true) :
    ∃ t, runToEnd s = .next t ∧ t.ended = true ∧
      ∀ j u, j < stepsToEnd xs → Host.Core.run core j s = .next u → u.ended = false := by
  induction xs generalizing s with
  | nil =>
    have hended : s.ended = true := by rw [State.ended_eq, hi]; rfl
    exact ⟨s, runToEnd_ended hended, hended, fun j u hj => absurd hj (Nat.not_lt_zero j)⟩
  | cons x rest ih =>
    cases hc : (x :: rest).any Input.isCommand with
    | false =>
      have hended : s.ended = true := by rw [State.ended_eq, hi, hc]; rfl
      rw [stepsToEnd_ended hc]
      exact ⟨s, runToEnd_ended hended, hended, fun j u hj => absurd hj (Nat.not_lt_zero j)⟩
    | true =>
      have hwaits : s.ended = false := by rw [State.ended_eq, hi, hc]; rfl
      rw [List.all_cons, Bool.and_eq_true] at hx
      obtain ⟨u, hu, hrest⟩ := step_ofRun hi hx.1
      obtain ⟨t, ht, hended, hbefore⟩ := ih hrest hx.2
      refine ⟨t, (runToEnd_step hi hwaits hu hrest).trans ht, hended, fun j v hj hv => ?_⟩
      cases j with
      | zero =>
        cases hv
        exact hwaits
      | succ j =>
        rw [stepsToEnd_cons hc] at hj
        rw [run_succ hu] at hv
        exact hbefore j v (by omega) hv

/-! ### Gate reads do not touch the outcome -/

/-- The state with other things waiting and another value at the gate-reader port: neither is the block's. -/
def State.setPorts (s : State) (rest : List Input) (g : Option GateResult) : State :=
  { s with inputs := rest, gateData := g }

/-- No command has a check or a write that reads the inputs or the gate-reader port. -/
theorem exec_setPorts {i : Instr} {s t : State} (rest : List Input) (g : Option GateResult) (h : exec i s = .next t) :
    exec i (s.setPorts rest g) = .next (t.setPorts rest g) := by
  cases i
  all_goals
    -- The pipeline is found in `h`; looking for it in the goal first is slow.
    have hrun := runCommand_map (State.setPorts · rest g) rfl (fun _ => rfl) h
    exact hrun

theorem presentWord_setPorts {w : DWord} {s t : State} (rest : List Input) (g : Option GateResult)
    (h : presentWord w s = .next t) : presentWord w (s.setPorts rest g) = .next (t.setPorts rest g) := by
  cases hd : decode w with
  | ok i =>
    rw [presentWord_legal hd] at h ⊢
    exact exec_setPorts rest g h
  | error e =>
    rw [presentWord_illegal hd] at h ⊢
    exact runCommand_map (State.setPorts · rest g) rfl (fun _ => rfl) h

/-- The state with the CPU's pins at other values. -/
def State.setPins (s : State) (cs : Half) (cpl : BitVec 2) (f : Bool) : State :=
  { s with csIn := cs, cplIn := cpl, ifIn := f }

/-- The two steps of a command with its pins, from a state before its end. -/
theorem runToEnd_command {w : DWord} {cs : Half} {cpl : BitVec 2} {f : Bool} {rest : List Input} {s t : State}
    (hi : s.inputs = .pins cs cpl f :: .command w :: rest)
    (h : presentWord w ((s.setPins cs cpl f).setInputs rest) = .next t) : runToEnd s = runToEnd t := by
  let u := (s.setPins cs cpl f).setInputs (.command w :: rest)
  have hpins : step s = .next u := step_cons hi
  have hword : step u = .next t := (step_cons (s := u) rfl).trans h
  have hwaits : s.ended = false := by rw [State.ended_eq, hi]; rfl
  rw [runToEnd_step hi hwaits hpins rfl, runToEnd_step (s := u) rfl rfl hword (presentWord_inputs h)]

/-- The run of the commands alone, from a state with the same block and pins, has the same outcome. -/
theorem runToEnd_commands {events : List RunEvent} {s : State} (g : Option GateResult)
    (hi : s.inputs = runInputs events) :
    ∃ t t', runToEnd s = .next t ∧
      runToEnd (s.setPorts (runInputs (events.filter RunEvent.isCommand)) g) = .next t' ∧ t'.outcome = t.outcome := by
  induction events generalizing s g with
  | nil => exact ⟨s, s.setPorts [] g, runToEnd_ended (by rw [State.ended_eq, hi]; rfl), runToEnd_ended rfl, rfl⟩
  | cons e es ih =>
    cases e with
    | command w cs cpl f =>
      obtain ⟨t, ht⟩ := presentWord_completes w ((s.setPins cs cpl f).setInputs (runInputs es))
      have ht' := presentWord_setPorts (runInputs (es.filter RunEvent.isCommand)) g ht
      have halone : runToEnd (s.setPorts (runInputs (.command w cs cpl f :: es.filter RunEvent.isCommand)) g) = _ :=
        runToEnd_command rfl ht'
      rw [List.filter_cons_of_pos rfl, runToEnd_command hi ht, halone]
      exact ih g (presentWord_inputs ht)
    | gateRead v =>
      rw [List.filter_cons_of_neg Bool.false_ne_true]
      cases hc : es.any RunEvent.isCommand with
      | false =>
        have hnone : es.filter RunEvent.isCommand = [] := by
          rw [List.filter_eq_nil_iff]
          exact List.any_eq_false.mp hc
        rw [hnone]
        refine ⟨s, s.setPorts [] g, runToEnd_ended ?_, runToEnd_ended rfl, rfl⟩
        rw [State.ended_eq, hi, runInputs_any, List.any_cons, hc]
        rfl
      | true =>
        have hwaits : s.ended = false := by
          rw [State.ended_eq, hi, runInputs_any, List.any_cons, hc]
          rfl
        have hread := step_cons hi
        rw [runToEnd_step hi hwaits hread rfl]
        let u := s.setPorts (runInputs es) (some (gateRead (s.setInputs (runInputs es)) v))
        exact ih (s := u) g rfl

/-- Settles O59: the run of inputs that always answer reaches its end with the last command (`runToEnd_reached`), and the
run without the gate reads goes through the same blocks (`runToEnd_commands`). -/
theorem runEndsAfterLastCommand : Obligations.RunEndsAfterLastCommand := by
  refine ⟨fun cs events => ?_, fun s w hw => ?_⟩
  · obtain ⟨t, ht, hended, hbefore⟩ :=
      runToEnd_reached (s := launchState cs (runInputs events)) rfl (runInputs_ofRun events)
    obtain ⟨t₁, t', ht₁, ht', hsame⟩ := runToEnd_commands (s := launchState cs (runInputs events)) none rfl
    rw [ht] at ht₁
    cases ht₁
    exact ⟨t, ht, hended, and_iff_right hended, and_iff_right hended, hbefore, t', ht', hsame⟩
  · have hwaits : s.ended = false := by
      rw [Bool.eq_false_iff, ne_eq, State.ended_iff]
      intro h
      cases h _ hw
    have hnot : ¬ s.ended = true := by
      rw [hwaits]
      exact Bool.false_ne_true
    exact ⟨hwaits, fun h => hnot h.1, fun h => hnot h.1⟩

end Sys2Proof.Machine
end
